-- ==== Sys2Proof/Word.lean ====
section
/-! DEFINITION. The widths of the block's values (00_scope.md R7, R8; 30_encoding.md R80). -/

namespace Sys2Proof

/-- A byte: a V register, DT, ST, SP, a memory cell, the field `nn`. -/
abbrev Byte := BitVec 8

/-- A 16-bit value: I, PC, a stack entry, an instruction word. -/
abbrev Word := BitVec 16

/-- A nibble: a register number `x` or `y`, the field `n`, a key value in PEND. -/
abbrev Nibble := BitVec 4

/-- The 12-bit field `nnn`. -/
abbrev Addr12 := BitVec 12

end Sys2Proof
end

