-- ==== Sys2Proof/Syntax.lean ====
section
/-! DEFINITION. The 35 instructions, one constructor per row of spec/opcode_table.json, in the table's order
(30_encoding.md R82). A field holds the instruction word's bits (R80, R81): `x`, `y` register numbers, `n`, `nn`, `nnn`
immediates. SHR and SHL keep their `y` field, which SHIFT_SOURCE may ignore (R131). -/

namespace Sys2Proof

/-- An instruction of the block. -/
inductive Instr where
  /-- SYS nnn (R100). -/
  | sys (nnn : Addr12)
  /-- CLS (R160). -/
  | cls
  /-- RET (R101). -/
  | ret
  /-- JP nnn (R102). -/
  | jp (nnn : Addr12)
  /-- CALL nnn (R104). -/
  | call (nnn : Addr12)
  /-- SE Vx, nn (R105). -/
  | seByte (x : Nibble) (nn : Byte)
  /-- SNE Vx, nn (R106). -/
  | sneByte (x : Nibble) (nn : Byte)
  /-- SE Vx, Vy (R107). -/
  | seReg (x y : Nibble)
  /-- LD Vx, nn (R122). -/
  | ldByte (x : Nibble) (nn : Byte)
  /-- ADD Vx, nn (R124). -/
  | addByte (x : Nibble) (nn : Byte)
  /-- LD Vx, Vy (R123). -/
  | ldReg (x y : Nibble)
  /-- OR Vx, Vy (R125). -/
  | orReg (x y : Nibble)
  /-- AND Vx, Vy (R126). -/
  | andReg (x y : Nibble)
  /-- XOR Vx, Vy (R127). -/
  | xorReg (x y : Nibble)
  /-- ADD Vx, Vy (R128). -/
  | addReg (x y : Nibble)
  /-- SUB Vx, Vy (R129). -/
  | sub (x y : Nibble)
  /-- SHR Vx {, Vy} (R131). -/
  | shr (x y : Nibble)
  /-- SUBN Vx, Vy (R130). -/
  | subn (x y : Nibble)
  /-- SHL Vx {, Vy} (R132). -/
  | shl (x y : Nibble)
  /-- SNE Vx, Vy (R108). -/
  | sneReg (x y : Nibble)
  /-- LD I, nnn (R140). -/
  | ldI (nnn : Addr12)
  /-- JP V0, nnn (R103). -/
  | jpV0 (nnn : Addr12)
  /-- RND Vx, nn (R133). -/
  | rnd (x : Nibble) (nn : Byte)
  /-- DRW Vx, Vy, n (R162). -/
  | drw (x y n : Nibble)
  /-- SKP Vx (R163). -/
  | skp (x : Nibble)
  /-- SKNP Vx (R164). -/
  | sknp (x : Nibble)
  /-- LD Vx, DT (R165). -/
  | ldVxDt (x : Nibble)
  /-- LD Vx, K (R168). -/
  | ldVxK (x : Nibble)
  /-- LD DT, Vx (R166). -/
  | ldDt (x : Nibble)
  /-- LD ST, Vx (R167). -/
  | ldSt (x : Nibble)
  /-- ADD I, Vx (R141). -/
  | addI (x : Nibble)
  /-- LD F, Vx (R142). -/
  | ldF (x : Nibble)
  /-- LD B, Vx (R143). -/
  | ldB (x : Nibble)
  /-- LD [I], Vx (R144). -/
  | ldStore (x : Nibble)
  /-- LD Vx, [I] (R145). -/
  | ldLoad (x : Nibble)
  deriving DecidableEq, Repr

end Sys2Proof
end

