-- ==== Sys2Proof/WellFormed.lean ====
section
/-! DEFINITION. Which terms of `Instr` stand for an instruction word. The field widths of R80 are in the types; the one
check left is SYS's: 0x000, 0x0E0 and 0x0EE are no SYS (30_encoding.md R82 row 1, R83; 41_control_flow.md R100). -/

namespace Sys2Proof

/-- `nnn` is a field of the machine-call family: not 0x0000 (a decode error, R85), not CLS, not RET. -/
def sysField (nnn : Addr12) : Bool :=
  nnn != 0x000#12 && nnn != 0x0E0#12 && nnn != 0x0EE#12

/-- The instruction is one that a word decodes to. -/
def Instr.wellFormed : Instr → Bool
  | .sys nnn => sysField nnn
  | .cls => true
  | .ret => true
  | .jp _ => true
  | .call _ => true
  | .seByte _ _ => true
  | .sneByte _ _ => true
  | .seReg _ _ => true
  | .ldByte _ _ => true
  | .addByte _ _ => true
  | .ldReg _ _ => true
  | .orReg _ _ => true
  | .andReg _ _ => true
  | .xorReg _ _ => true
  | .addReg _ _ => true
  | .sub _ _ => true
  | .shr _ _ => true
  | .subn _ _ => true
  | .shl _ _ => true
  | .sneReg _ _ => true
  | .ldI _ => true
  | .jpV0 _ => true
  | .rnd _ _ => true
  | .drw _ _ _ => true
  | .skp _ => true
  | .sknp _ => true
  | .ldVxDt _ => true
  | .ldVxK _ => true
  | .ldDt _ => true
  | .ldSt _ => true
  | .addI _ => true
  | .ldF _ => true
  | .ldB _ => true
  | .ldStore _ => true
  | .ldLoad _ => true

end Sys2Proof
end

