-- ==== Sys2Proof/Decode.lean ====
section
/-! DEFINITION. The decoder (30_encoding.md R80 to R86) and the encoder written from the same opcode map (R82). -/

namespace Sys2Proof

/-- Why bytes are no instruction (30_encoding.md R84); the machine reports each as DecodeError. -/
inductive DecodeReject where
  /-- The word 0x0000, outside the machine-call family (R85). -/
  | zeroWord
  /-- 5xyN or 9xyN with N not 0. -/
  | undefinedSkip
  /-- 8xyN with N in 0x8 to 0xD, or 0xF. -/
  | undefinedArithmetic
  /-- ExNN with NN neither 0x9E nor 0xA1. -/
  | undefinedKey
  /-- FxNN with NN not in the list of R84. -/
  | undefinedMisc
  /-- Fewer than two bytes: no whole word (R86). -/
  | truncated
  deriving DecidableEq, Repr

/-! ### The fields of a word (R80) -/

/-- `op = w[15:12]`, the opcode class. -/
def opField (w : Word) : Nibble := w.extractLsb' 12 4

/-- `x = w[11:8]`. -/
def xField (w : Word) : Nibble := w.extractLsb' 8 4

/-- `y = w[7:4]`. -/
def yField (w : Word) : Nibble := w.extractLsb' 4 4

/-- `n = w[3:0]`. -/
def nField (w : Word) : Nibble := w.extractLsb' 0 4

/-- `nn = w[7:0]`. -/
def nnField (w : Word) : Byte := w.extractLsb' 0 8

/-- `nnn = w[11:0]`. -/
def nnnField (w : Word) : Addr12 := w.extractLsb' 0 12

/-! ### Decode (R83) -/

/-- Class 0x0 (R83, R85). -/
def decodeClass0 (nnn : Addr12) : Except DecodeReject Instr :=
  if nnn = 0x0E0#12 then .ok .cls
  else if nnn = 0x0EE#12 then .ok .ret
  else if nnn ≠ 0x000#12 then .ok (.sys nnn)
  else .error .zeroWord

/-- Class 0x8 (R83): the sub-opcode is `n`. -/
def decodeClass8 (x y n : Nibble) : Except DecodeReject Instr :=
  match n with
  | 0x0#4 => .ok (.ldReg x y)
  | 0x1#4 => .ok (.orReg x y)
  | 0x2#4 => .ok (.andReg x y)
  | 0x3#4 => .ok (.xorReg x y)
  | 0x4#4 => .ok (.addReg x y)
  | 0x5#4 => .ok (.sub x y)
  | 0x6#4 => .ok (.shr x y)
  | 0x7#4 => .ok (.subn x y)
  | 0xE#4 => .ok (.shl x y)
  | _ => .error .undefinedArithmetic

/-- Class 0xE (R83): the sub-opcode is `nn`. -/
def decodeClassE (x : Nibble) (nn : Byte) : Except DecodeReject Instr :=
  match nn with
  | 0x9E#8 => .ok (.skp x)
  | 0xA1#8 => .ok (.sknp x)
  | _ => .error .undefinedKey

/-- Class 0xF (R83): the sub-opcode is `nn`. -/
def decodeClassF (x : Nibble) (nn : Byte) : Except DecodeReject Instr :=
  match nn with
  | 0x07#8 => .ok (.ldVxDt x)
  | 0x0A#8 => .ok (.ldVxK x)
  | 0x15#8 => .ok (.ldDt x)
  | 0x18#8 => .ok (.ldSt x)
  | 0x1E#8 => .ok (.addI x)
  | 0x29#8 => .ok (.ldF x)
  | 0x33#8 => .ok (.ldB x)
  | 0x55#8 => .ok (.ldStore x)
  | 0x65#8 => .ok (.ldLoad x)
  | _ => .error .undefinedMisc

/-- Decode of one word (R83), total: an instruction, or the reason there is none (R84). -/
def decode (w : Word) : Except DecodeReject Instr :=
  match opField w with
  | 0x0#4 => decodeClass0 (nnnField w)
  | 0x1#4 => .ok (.jp (nnnField w))
  | 0x2#4 => .ok (.call (nnnField w))
  | 0x3#4 => .ok (.seByte (xField w) (nnField w))
  | 0x4#4 => .ok (.sneByte (xField w) (nnField w))
  | 0x5#4 => if nField w = 0x0#4 then .ok (.seReg (xField w) (yField w)) else .error .undefinedSkip
  | 0x6#4 => .ok (.ldByte (xField w) (nnField w))
  | 0x7#4 => .ok (.addByte (xField w) (nnField w))
  | 0x8#4 => decodeClass8 (xField w) (yField w) (nField w)
  | 0x9#4 => if nField w = 0x0#4 then .ok (.sneReg (xField w) (yField w)) else .error .undefinedSkip
  | 0xA#4 => .ok (.ldI (nnnField w))
  | 0xB#4 => .ok (.jpV0 (nnnField w))
  | 0xC#4 => .ok (.rnd (xField w) (nnField w))
  | 0xD#4 => .ok (.drw (xField w) (yField w) (nField w))
  | 0xE#4 => decodeClassE (xField w) (nnField w)
  | _ => decodeClassF (xField w) (nnField w)

/-- A word from its two bytes, the byte at the lower address first (20_memory.md R52). -/
def wordOfBytes (hi lo : Byte) : Word := hi ++ lo

/-- The two bytes of a word in memory order (20_memory.md R52). -/
def bytesOfWord (w : Word) : List Byte := [w.extractLsb' 8 8, w.extractLsb' 0 8]

/-- Decode of a byte sequence: the instruction at its head and the bytes after it (R86: always one word). -/
def decodeBytes : List Byte → Except DecodeReject (Instr × List Byte)
  | hi :: lo :: rest =>
    match decode (wordOfBytes hi lo) with
    | .ok i => .ok (i, rest)
    | .error r => .error r
  | _ => .error .truncated

/-- The bytes of an instruction whose low `nbits` bits are `w`, every bit above them zero, numbered as
spec/opcode_table.json numbers them (bit 0 the least significant of the one word), laid out as memory stores them. -/
def tableBytes (nbits w : Nat) : List Byte := bytesOfWord (BitVec.ofNat 16 (w % 2 ^ nbits))

/-- The instruction the decoder reads from a word of the opcode table. -/
def decodeTableWord (nbits w : Nat) : Option Instr :=
  match decodeBytes (tableBytes nbits w) with
  | .ok (i, _) => some i
  | .error _ => none

/-! ### Encode (R82) -/

/-- A word of the form `op x nn`. -/
def wordXnn (op x : Nibble) (nn : Byte) : Word := op ++ x ++ nn

/-- A word of the form `op x y n`. -/
def wordXyn (op x y n : Nibble) : Word := op ++ x ++ y ++ n

/-- A word of the form `op nnn`. -/
def wordNnn (op : Nibble) (nnn : Addr12) : Word := op ++ nnn

/-- The word of an instruction, by the pattern column of R82. -/
def encode : Instr → Word
  | .sys nnn => wordNnn 0x0#4 nnn
  | .cls => 0x00E0#16
  | .ret => 0x00EE#16
  | .jp nnn => wordNnn 0x1#4 nnn
  | .call nnn => wordNnn 0x2#4 nnn
  | .seByte x nn => wordXnn 0x3#4 x nn
  | .sneByte x nn => wordXnn 0x4#4 x nn
  | .seReg x y => wordXyn 0x5#4 x y 0x0#4
  | .ldByte x nn => wordXnn 0x6#4 x nn
  | .addByte x nn => wordXnn 0x7#4 x nn
  | .ldReg x y => wordXyn 0x8#4 x y 0x0#4
  | .orReg x y => wordXyn 0x8#4 x y 0x1#4
  | .andReg x y => wordXyn 0x8#4 x y 0x2#4
  | .xorReg x y => wordXyn 0x8#4 x y 0x3#4
  | .addReg x y => wordXyn 0x8#4 x y 0x4#4
  | .sub x y => wordXyn 0x8#4 x y 0x5#4
  | .shr x y => wordXyn 0x8#4 x y 0x6#4
  | .subn x y => wordXyn 0x8#4 x y 0x7#4
  | .shl x y => wordXyn 0x8#4 x y 0xE#4
  | .sneReg x y => wordXyn 0x9#4 x y 0x0#4
  | .ldI nnn => wordNnn 0xA#4 nnn
  | .jpV0 nnn => wordNnn 0xB#4 nnn
  | .rnd x nn => wordXnn 0xC#4 x nn
  | .drw x y n => wordXyn 0xD#4 x y n
  | .skp x => wordXnn 0xE#4 x 0x9E#8
  | .sknp x => wordXnn 0xE#4 x 0xA1#8
  | .ldVxDt x => wordXnn 0xF#4 x 0x07#8
  | .ldVxK x => wordXnn 0xF#4 x 0x0A#8
  | .ldDt x => wordXnn 0xF#4 x 0x15#8
  | .ldSt x => wordXnn 0xF#4 x 0x18#8
  | .addI x => wordXnn 0xF#4 x 0x1E#8
  | .ldF x => wordXnn 0xF#4 x 0x29#8
  | .ldB x => wordXnn 0xF#4 x 0x33#8
  | .ldStore x => wordXnn 0xF#4 x 0x55#8
  | .ldLoad x => wordXnn 0xF#4 x 0x65#8

end Sys2Proof
end

