-- ==== Sys2Proof/Config.lean ====
section
/-! DEFINITION. What is fixed for the machine (00_scope.md R7) and the one free value.
The parameters whose value is the spec's decision have their TYPES here; their values stand beside the operations
that use them: `Machine.shiftSource` (Operands), `Machine.vfWriteOrder` (Flags), `Machine.fontTable` (Ops),
`Machine.timerPeriod` (Timers). -/

namespace Sys2Proof.Config

/-- MEM_SIZE (R7): 4096 bytes, addresses 0x000 to 0xFFF. -/
abbrev memSize : Nat := 0x1000

/-- PROGRAM_BASE (R7): where a program is loaded and the first instruction stands. -/
abbrev programBase : Nat := 0x200

/-- MAX_PROGRAM_LEN (R7, 90_conflicts.md C2): MEM_SIZE - PROGRAM_BASE = 3584. -/
abbrev maxProgramLen : Nat := memSize - programBase

/-- FONT_END (R7), exclusive; FONT_BASE is 0. -/
abbrev fontEnd : Nat := 0x050

/-- GLYPH_BYTES (R7). -/
abbrev glyphBytes : Nat := 5

/-- STACK_DEPTH (R7). -/
abbrev stackDepth : Nat := 16

/-- DISPLAY_H (R7). -/
abbrev displayH : Nat := 32

/-- DISPLAY_W (R7). -/
abbrev displayW : Nat := 64

/-- NUM_KEYS (R7). -/
abbrev numKeys : Nat := 16

/-- SHIFT_SOURCE (42_alu.md R131; 92_eei_decisions.md D6): which register SHR and SHL shift. -/
inductive ShiftSource where
  /-- The operand is Vx; y is ignored. -/
  | inPlace
  /-- The operand is Vy. -/
  | fromVy
  deriving DecidableEq, Repr

/-- VF_WRITE_ORDER (42_alu.md R121; 92_eei_decisions.md D7): which of the two writes of a flag instruction comes last. -/
inductive VfWriteOrder where
  /-- The result, then the flag: VF ends as the flag. -/
  | flagLast
  /-- The flag, then the result: with x = 0xF, VF ends as the result. -/
  | resultLast
  deriving DecidableEq, Repr

/-- FREE VALUE (00_scope.md R10 `draw_random`; 42_alu.md R133; 92_eei_decisions.md D24): the k-th random byte drawn.
No body, so nothing can be proved of a value of it. Safe: a claim holds for every sequence of bytes. Log entry 5. -/
opaque randomByte : Nat → Byte

end Sys2Proof.Config
end

