-- ==== Sys2Proof/Machine/State.lean ====
section
/-! DEFINITION. The state of the block (10_state.md R20 to R36), its errors (60_exceptions.md R200), the host's
operations and outputs (00_scope.md R6; 45_cycle_orchestrator.md R191), and the state after reset. -/

namespace Sys2Proof.Machine

/-- Memory as data (10_state.md R26): the bytes that differ from what an unlisted address reads as (the reset contents,
`Memory.resetByte`), addresses strictly rising. -/
abbrev Memory := List Host.Cell

/-- The register file V0 to VF (R21). -/
abbrev Regs := Vector Byte 16

/-- The display (R29): rows, then columns; `true` means lit. -/
abbrev Display := Vector (Vector Bool 64) 32

/-- The register snapshot of a DecodeError (60_exceptions.md R201): V0..VF, I, SP and the fetch-advanced PC. -/
structure Snapshot where
  v : Regs
  i : Word
  sp : Byte
  pc : Word
  deriving DecidableEq, Repr

/-- The eight errors of 60_exceptions.md R200, each with its payload. -/
inductive Error where
  /-- LoadError(ProgramTooLarge), code 1: the program's length. -/
  | programTooLarge (len : Nat)
  /-- DecodeError, code 2: the word, the address it was fetched from, the snapshot (R201). -/
  | decodeError (opcode : Word) (pc : Word) (snapshot : Snapshot)
  /-- ControlFlowError(EmptyCallStack), code 3. -/
  | emptyCallStack
  /-- ControlFlowError(StackOverflow), code 4. -/
  | stackOverflow
  /-- ControlFlowError(InvalidAddress), code 5: the target, computed without wrap (20_memory.md R60). -/
  | invalidAddress (target : Nat)
  /-- MemoryAccessError, code 6: base address and length. -/
  | memoryAccess (addr : Word) (len : Nat)
  /-- InputValidationError(InvalidKey), code 7: the value. -/
  | invalidKey (value : Byte)
  /-- InputValidationError(InvalidDigit), code 8: the value. -/
  | invalidDigit (value : Byte)
  deriving DecidableEq, Repr

/-- The five error classes of 60_exceptions.md R200. -/
inductive ErrorClass where
  | load | decode | controlFlow | memoryAccess | inputValidation
  deriving DecidableEq, Repr

/-- What the block hands to the host (45_cycle_orchestrator.md R191), apart from the display, which is state. -/
inductive Output where
  /-- The event `start_tone` (R185). -/
  | startTone
  /-- The event `stop_tone` (R185, R220). -/
  | stopTone
  /-- An error returned by a cycle (R183) or by load (R190). -/
  | error (e : Error)
  deriving DecidableEq, Repr

/-- The host's operations (00_scope.md R6). Keys and times are as the host passes them, in range or not (R189). The
display query changes nothing and is the function `queryDisplay`. -/
inductive HostOp where
  /-- `load(program)` (R190). -/
  | load (program : List Byte)
  /-- `reset()` (R220). -/
  | reset
  /-- `execute_cycle(delta_time)`, delta in seconds (R180). -/
  | executeCycle (delta : Rat)
  /-- `key_down(k)` (R186). -/
  | keyDown (k : Nat)
  /-- `key_up(k)` (R187). -/
  | keyUp (k : Nat)
  deriving DecidableEq, Repr

/-- The whole state. The fields down to `fault` are the spec's (R20, R33); the last four are the model's own. -/
structure State where
  /-- memory (R26). -/
  mem : Memory
  /-- V0..VF (R21); VF, register 15, is also the flag (R22). -/
  v : Regs
  /-- I, the address register (R23). -/
  i : Word
  /-- PC, the program counter (R24). -/
  pc : Word
  /-- STACK (R25). -/
  stack : Vector Word 16
  /-- SP, entries of STACK in use (R25). -/
  sp : Byte
  /-- DT, the delay timer (R28). -/
  dt : Byte
  /-- ST, the sound timer (R28). -/
  st : Byte
  /-- DISP (R29). -/
  disp : Display
  /-- KEYS, true while the key is down (R30). -/
  keys : Vector Bool 16
  /-- WAIT, waiting_for_key (R31). -/
  wait : Bool
  /-- PEND, pending_keypress (R32). -/
  pend : Option Nibble
  /-- ACC, seconds accumulated toward the next tick (R33, R181). -/
  acc : Rat
  /-- TONE, is a tone playing (R33, R185). -/
  tone : Bool
  /-- LOADED, has a program been loaded since reset (R33). -/
  loaded : Bool
  /-- FAULT, the latched error (R33, R183, R184). -/
  fault : Option Error
  /-- Model's own: how many random bytes have been drawn; picks the next free value (log entry 5). -/
  draws : Nat
  /-- Model's own: the host operations still to come, oldest first (log entry 6). -/
  inbox : List HostOp
  /-- Model's own: the delta_time of the `execute_cycle` the host calls when `inbox` is empty (log entry 6). -/
  hostDelta : Rat
  /-- Model's own: every output handed to the host so far, oldest first (log entry 8). -/
  out : List Output
  deriving DecidableEq, Repr

/-- Why the machine stops with a fault. -/
inductive Fault where
  /-- RET in a state with SP > 16 (10_state.md R25 excludes it; no run reaches it): STACK has no entry SP - 1.
  Raised by `State.pop`. Safe: the machine stops where the spec gives no behaviour. Log entry 21. -/
  | noStackEntry (index : Nat)
  deriving DecidableEq, Repr

/-- Why a step is refused: the host's call is outside its contract, for which the spec gives no step
(45_cycle_orchestrator.md R189). Each is safe. Log entry 9. -/
inductive Refusal where
  /-- An instruction without a meaning; no arm raises it. -/
  | notModelled (mnemonic : String)
  /-- `execute_cycle` with LOADED = false (R189). Raised by `executeCycle`. -/
  | notLoaded
  /-- `execute_cycle` while FAULT holds an error (R184, R189). Raised by `executeCycle`. -/
  | faultLatched
  /-- `execute_cycle` with a negative delta (R189). Raised by `executeCycle`. -/
  | negativeDelta
  /-- `load` with LOADED = true (R189). Raised by `loadProgram`. -/
  | alreadyLoaded
  /-- `key_down(k)` or `key_up(k)` with k > 15 (R189). Raised by `keyDown` and `keyUp`. -/
  | keyOutOfRange
  deriving DecidableEq, Repr

/-- The state after construction and after reset (10_state.md R36; 70_reset_and_hazards.md R221). Memory lists nothing:
an unlisted address reads as its reset contents. The last four fields are the model's own (log entries 5, 6, 8). -/
def State.reset : State where
  mem := []
  v := Vector.replicate 16 0x00#8
  i := 0x0000#16
  pc := 0x0200#16
  stack := Vector.replicate 16 0x0000#16
  sp := 0x00#8
  dt := 0x00#8
  st := 0x00#8
  disp := Vector.replicate 32 (Vector.replicate 64 false)
  keys := Vector.replicate 16 false
  wait := false
  pend := none
  acc := 0
  tone := false
  loaded := false
  fault := none
  draws := 0
  inbox := []
  hostDelta := 0
  out := []

end Sys2Proof.Machine
end

