-- ==== Sys2Proof/Machine/Ops.lean ====
section
/-! DEFINITION. The named operations over memory and state: memory reads and writes (20_memory.md), registers, the
return stack, fetch, raising an error (60_exceptions.md R202, R203) and the way out of one, reset (R204, R220). -/

namespace Sys2Proof.Machine

/-- The outcome of an instruction or a host operation. -/
abbrev Result := Host.Outcome State Fault Refusal

/-! ### Memory -/

/-- FONT_TABLE (10_state.md R27): 16 glyphs of 5 rows, top row first. The spec's default bytes, general knowledge and
not from its source (D21): PRESUMED, unsafe for claims about glyph pixels. Log entry 1. -/
def fontTable : List Byte :=
  [ 0xF0, 0x90, 0x90, 0x90, 0xF0,
    0x20, 0x60, 0x20, 0x20, 0x70,
    0xF0, 0x10, 0xF0, 0x80, 0xF0,
    0xF0, 0x10, 0xF0, 0x10, 0xF0,
    0x90, 0x90, 0xF0, 0x10, 0x10,
    0xF0, 0x80, 0xF0, 0x10, 0xF0,
    0xF0, 0x80, 0xF0, 0x90, 0xF0,
    0xF0, 0x10, 0x20, 0x40, 0x40 ] ++
  [ 0xF0, 0x90, 0xF0, 0x90, 0xF0,
    0xF0, 0x90, 0xF0, 0x10, 0xF0,
    0xF0, 0x90, 0xF0, 0x90, 0x90,
    0xE0, 0x90, 0xE0, 0x90, 0xE0,
    0xF0, 0x80, 0x80, 0x80, 0xF0,
    0xE0, 0x90, 0x90, 0x90, 0xE0,
    0xF0, 0x80, 0xF0, 0x80, 0xF0,
    0xF0, 0x80, 0xF0, 0x80, 0x80 ]

/-- What an unlisted address reads as: the reset contents (10_state.md R36), the font below 0x050 and 0x00 elsewhere. -/
def Memory.resetByte (a : Nat) : Byte :=
  if a < Config.fontEnd then fontTable.getD a 0x00#8 else 0x00#8

/-- Read of one byte (R53: no side effect). Every caller checks its bounds first (00_scope.md R10). -/
def Memory.read : Memory → Nat → Byte
  | [], a => Memory.resetByte a
  | (k, b) :: rest, a => if k = a then b else Memory.read rest a

/-- The list with the cell put before the first higher address. -/
def Memory.insert : Memory → Nat → Byte → Memory
  | [], a, b => [(a, b)]
  | (k, c) :: rest, a, b =>
    if a < k then (a, b) :: (k, c) :: rest else (k, c) :: Memory.insert rest a b

/-- Write of one byte (00_scope.md R10 `MemWrite`), keeping the canonical form: the old entry goes, and a byte equal to
what the address reads as unlisted is not listed. -/
def Memory.write (m : Memory) (a : Nat) (b : Byte) : Memory :=
  let others := m.filter fun cell => cell.1 != a
  if b = Memory.resetByte a then others else Memory.insert others a b

/-- Writes of consecutive bytes at ascending addresses from `a` (R53, R62). -/
def Memory.writeBytes : Memory → Nat → List Byte → Memory
  | m, _, [] => m
  | m, a, b :: rest => Memory.writeBytes (Memory.write m a b) (a + 1) rest

/-- Addresses strictly rise from one entry to the next. -/
def Memory.rising : Memory → Bool
  | [] => true
  | [_] => true
  | c :: d :: rest => decide (c.1 < d.1) && Memory.rising (d :: rest)

/-- The canonical form: addresses strictly rising, all inside memory (R50), no entry equal to what its address reads as
unlisted. -/
def Memory.wf (m : Memory) : Bool :=
  Memory.rising m && m.all fun c => decide (c.1 < Config.memSize) && c.2 != Memory.resetByte c.1

/-! ### Registers -/

/-- `V[r]` (R21). -/
def State.reg (s : State) (r : Nibble) : Byte := s.v[r.toNat]

/-- `V[r] <- b` (R21). -/
def State.setReg (s : State) (r : Nibble) (b : Byte) : State :=
  { s with v := s.v.set r.toNat b }

/-- The number of VF (R22). -/
def vf : Nibble := 0xF#4

/-- The values of V0 to Vx in ascending order (43_index_memory.md R144). -/
def State.regsUpTo (s : State) (x : Nibble) : List Byte := s.v.toList.take (x.toNat + 1)

/-- `PC <- PC + 2`: the fetch advance (20_memory.md R55) and the skip (41_control_flow.md R105). -/
def State.advance (s : State) : State := { s with pc := s.pc + 2#16 }

/-- `PC <- PC - 2`: the rewind of LD Vx, K (44_display_keys_timers.md R168). -/
def State.rewind (s : State) : State := { s with pc := s.pc - 2#16 }

/-- `PC <- t` (R10). -/
def State.jump (s : State) (t : Nat) : State := { s with pc := BitVec.ofNat 16 t }

/-- Skip the next word if `c` (41_control_flow.md R105 to R108). -/
def State.skipIf (s : State) (c : Bool) : State := if c then s.advance else s

/-! ### Raising an error and the way out of it -/

/-- The class of an error (60_exceptions.md R200). -/
def Error.errorClass : Error → ErrorClass
  | .programTooLarge _ => .load
  | .decodeError _ _ _ => .decode
  | .emptyCallStack => .controlFlow
  | .stackOverflow => .controlFlow
  | .invalidAddress _ => .controlFlow
  | .memoryAccess _ _ => .memoryAccess
  | .invalidKey _ => .inputValidation
  | .invalidDigit _ => .inputValidation

/-- The spec's numeric label of an error (60_exceptions.md R200). -/
def Error.code : Error → Nat
  | .programTooLarge _ => 1
  | .decodeError _ _ _ => 2
  | .emptyCallStack => 3
  | .stackOverflow => 4
  | .invalidAddress _ => 5
  | .memoryAccess _ _ => 6
  | .invalidKey _ => 7
  | .invalidDigit _ => 8

/-- Hand an output to the host (R10 `emit`, R191). -/
def State.emit (s : State) (o : Output) : State := { s with out := s.out ++ [o] }

/-- The state after an error is raised in a cycle (45_cycle_orchestrator.md R183; 60_exceptions.md R203): the error is
returned to the host and FAULT latches it; nothing is saved and nothing else changes. Log entry 7. -/
def State.raised (s : State) (e : Error) : State := { s.emit (.error e) with fault := some e }

/-- `raise E(info)` (00_scope.md R10): taking the error is a next state. -/
def raise (e : Error) (s : State) : Result := .next (s.raised e)

/-- The snapshot a DecodeError carries (60_exceptions.md R201). -/
def State.snapshot (s : State) : Snapshot := { v := s.v, i := s.i, sp := s.sp, pc := s.pc }

/-- `reset()` (70_reset_and_hazards.md R220), the only way out of a latched error (60_exceptions.md R204): every field of
R36 at its reset value, `stop_tone` if a tone is playing (D32). The model's own fields are the host's side and the draw
counter, which reset does not touch. Log entry 24. -/
def resetOp (s : State) : Result :=
  .next { State.reset with
    draws := s.draws, inbox := s.inbox, hostDelta := s.hostDelta,
    out := if s.tone then s.out ++ [.stopTone] else s.out }

/-! ### The return stack (10_state.md R25) -/

/-- `STACK[SP] <- PC; SP <- SP + 1`, then `PC <- t`; StackOverflow if SP + 1 > 16 (41_control_flow.md R104). -/
def State.pushJump (s : State) (t : Nat) : Result :=
  if h : s.sp.toNat + 1 ≤ Config.stackDepth then
    .next { s with
      stack := s.stack.set s.sp.toNat s.pc (by simpa [Config.stackDepth] using h)
      sp := s.sp + 1#8
      pc := BitVec.ofNat 16 t }
  else raise .stackOverflow s

/-- `SP <- SP - 1; PC <- STACK[SP]`; EmptyCallStack if SP = 0 (41_control_flow.md R101). The popped entry keeps its
value (R25). With SP > 16, which R25 excludes, there is no entry: a fault (log entry 21). -/
def State.pop (s : State) : Result :=
  if s.sp = 0#8 then raise .emptyCallStack s
  else if h : s.sp.toNat - 1 < 16 then
    .next { s with sp := s.sp - 1#8, pc := s.stack[s.sp.toNat - 1] }
  else .fault (.noStackEntry (s.sp.toNat - 1))

/-! ### Fetch (20_memory.md R55, R56) -/

/-- The word at PC, big-endian (R52), or none where its second byte would lie outside memory (R56). -/
def State.fetchWord (s : State) : Option Word :=
  if s.pc.toNat + 1 > 0xFFF then none
  else some (wordOfBytes (Memory.read s.mem s.pc.toNat) (Memory.read s.mem (s.pc.toNat + 1)))

end Sys2Proof.Machine
end

