-- ==== Sys2Proof/Machine/Operands.lean ====
section
/-! DEFINITION. Operand forms: addresses and their bound checks (20_memory.md R58, R59, R60), the shift operand
(42_alu.md R131), digits and keys. -/

namespace Sys2Proof.Machine

/-- `zext_16(nnn)` as an address (30_encoding.md R81). -/
def addrOf (nnn : Addr12) : Nat := nnn.toNat

/-- The target of JP V0, nnn, without wrap (41_control_flow.md R103). -/
def targetV0 (nnn : Addr12) (s : State) : Nat := nnn.toNat + (s.reg 0x0#4).toNat

/-- `target_ok` (20_memory.md R60). -/
def targetOk (t : Nat) : Bool := decide (Config.programBase ≤ t) && decide (t < Config.memSize)

/-- `data_range_ok` (20_memory.md R58), the sum exact; `<`, so the byte at 0xFFF is never reached. -/
def dataRangeOk (addr len : Nat) : Bool :=
  decide (Config.programBase ≤ addr) && decide (addr + len < Config.memSize)

/-- `sprite_range_ok` (20_memory.md R59), the sum exact, with no lower bound. -/
def spriteRangeOk (i n : Nat) : Bool := decide (i + n ≤ Config.memSize)

/-- How many registers LD [I], Vx and LD Vx, [I] move (43_index_memory.md R144, R145). -/
def blockLen (x : Nibble) : Nat := x.toNat + 1

/-- The value of the parameter SHIFT_SOURCE: the spec's decision D6. UNVERIFIED (the spec's own choice), unsafe
where y differs from x. Log entry 2. -/
def shiftSource : Config.ShiftSource := .inPlace

/-- The operand SHR and SHL shift (42_alu.md R131, R132). -/
def shiftOperand (src : Config.ShiftSource) (x y : Nibble) (s : State) : Byte :=
  match src with
  | .inPlace => s.reg x
  | .fromVy => s.reg y

/-- The three decimal digits of a byte: hundreds, tens, units (43_index_memory.md R143; order D20, log entry 20). -/
def bcdDigits (b : Byte) : List Byte :=
  [BitVec.ofNat 8 (b.toNat / 100), BitVec.ofNat 8 (b.toNat / 10 % 10), BitVec.ofNat 8 (b.toNat % 10)]

/-- The glyph address of a digit (43_index_memory.md R142). -/
def glyphAddr (d : Byte) : Word := BitVec.ofNat 16 (d.toNat * Config.glyphBytes)

end Sys2Proof.Machine
end

