-- ==== Sys2Proof/Machine/Flags.lean ====
section
/-! DEFINITION. The arithmetic results and the flags VF takes (42_alu.md R120, R121, R128 to R132): exact integers first,
then the wrap to a byte. -/

namespace Sys2Proof.Machine

/-- `bool(c)` as a byte (00_scope.md R8). -/
def boolByte (c : Bool) : Byte := if c then 0x01#8 else 0x00#8

/-- `(a + b) mod 256` (R124, R128). -/
def addWrap (a b : Byte) : Byte := BitVec.ofNat 8 (a.toNat + b.toNat)

/-- `(a - b) mod 256` (R129, R130). -/
def subWrap (a b : Byte) : Byte := BitVec.ofInt 8 ((a.toNat : Int) - (b.toNat : Int))

/-- ADD Vx, Vy's flag: 1 when there is NO overflow, the inverse of a carry (R128). -/
def noOverflowFlag (a b : Byte) : Byte := boolByte (decide (a.toNat + b.toNat ≤ 255))

/-- SUB's flag: 1 when there is no borrow (R129). -/
def noBorrowFlag (a b : Byte) : Byte := boolByte (decide (b.toNat ≤ a.toNat))

/-- SUBN's flag, for `b - a`: 1 when a borrow DID occur, the opposite polarity of SUB (R130). -/
def borrowFlag (a b : Byte) : Byte := boolByte (decide (b.toNat < a.toNat))

/-- SHR's result (R131). -/
def shrResult (a : Byte) : Byte := a >>> 1

/-- SHR's flag, the bit shifted out (R131). -/
def shrFlag (a : Byte) : Byte := boolByte (a.getLsbD 0)

/-- SHL's result, mod 256 (R132). -/
def shlResult (a : Byte) : Byte := a <<< 1

/-- SHL's flag, the bit shifted out (R132). -/
def shlFlag (a : Byte) : Byte := boolByte (a.getLsbD 7)

/-- The value of the parameter VF_WRITE_ORDER: the spec's decision D7. UNVERIFIED (the spec's own choice), unsafe where
x = 0xF. Log entry 3. -/
def vfWriteOrder : Config.VfWriteOrder := .flagLast

/-- `write_result_and_flag` (R121), for either order. -/
def State.writeResultAndFlag (s : State) (order : Config.VfWriteOrder) (x : Nibble) (r f : Byte) : State :=
  match order with
  | .flagLast => (s.setReg x r).setReg vf f
  | .resultLast => (s.setReg vf f).setReg x r

end Sys2Proof.Machine
end

