-- ==== Sys2Proof/Machine/Alu.lean ====
section
/-! DEFINITION. Register loads, arithmetic, logic, shifts, random (42_alu.md). -/

namespace Sys2Proof.Machine

/-- LD Vx, nn (R122). -/
def execLdByte (x : Nibble) (nn : Byte) (s : State) : Result := .next (s.setReg x nn)

/-- LD Vx, Vy (R123). -/
def execLdReg (x y : Nibble) (s : State) : Result := .next (s.setReg x (s.reg y))

/-- ADD Vx, nn (R124): no flag. -/
def execAddByte (x : Nibble) (nn : Byte) (s : State) : Result := .next (s.setReg x (addWrap (s.reg x) nn))

/-- OR Vx, Vy (R125). -/
def execOr (x y : Nibble) (s : State) : Result := .next (s.setReg x (s.reg x ||| s.reg y))

/-- AND Vx, Vy (R126). -/
def execAnd (x y : Nibble) (s : State) : Result := .next (s.setReg x (s.reg x &&& s.reg y))

/-- XOR Vx, Vy (R127). -/
def execXor (x y : Nibble) (s : State) : Result := .next (s.setReg x (s.reg x ^^^ s.reg y))

/-- ADD Vx, Vy (R128). -/
def execAddReg (x y : Nibble) (s : State) : Result :=
  .next (s.writeResultAndFlag vfWriteOrder x (addWrap (s.reg x) (s.reg y)) (noOverflowFlag (s.reg x) (s.reg y)))

/-- SUB Vx, Vy (R129). -/
def execSub (x y : Nibble) (s : State) : Result :=
  .next (s.writeResultAndFlag vfWriteOrder x (subWrap (s.reg x) (s.reg y)) (noBorrowFlag (s.reg x) (s.reg y)))

/-- SUBN Vx, Vy (R130): Vx = Vy - Vx. -/
def execSubn (x y : Nibble) (s : State) : Result :=
  .next (s.writeResultAndFlag vfWriteOrder x (subWrap (s.reg y) (s.reg x)) (borrowFlag (s.reg x) (s.reg y)))

/-- The state after SHR (R131) under either value of the two parameters. -/
def State.shiftRight (s : State) (src : Config.ShiftSource) (order : Config.VfWriteOrder) (x y : Nibble) : State :=
  s.writeResultAndFlag order x (shrResult (shiftOperand src x y s)) (shrFlag (shiftOperand src x y s))

/-- The state after SHL (R132) under either value of the two parameters. -/
def State.shiftLeft (s : State) (src : Config.ShiftSource) (order : Config.VfWriteOrder) (x y : Nibble) : State :=
  s.writeResultAndFlag order x (shlResult (shiftOperand src x y s)) (shlFlag (shiftOperand src x y s))

/-- SHR Vx (R131). -/
def execShr (x y : Nibble) (s : State) : Result := .next (s.shiftRight shiftSource vfWriteOrder x y)

/-- SHL Vx (R132). -/
def execShl (x y : Nibble) (s : State) : Result := .next (s.shiftLeft shiftSource vfWriteOrder x y)

/-- RND Vx, nn (R133): the next free byte, masked; the counter moves on, so each execution draws anew (D24). -/
def execRnd (x : Nibble) (nn : Byte) (s : State) : Result :=
  .next { s.setReg x (Config.randomByte s.draws &&& nn) with draws := s.draws + 1 }

end Sys2Proof.Machine
end

