-- ==== Sys2Proof/Machine/ControlFlow.lean ====
section
/-! DEFINITION. Control flow and system instructions (41_control_flow.md). PC already holds the fetch-advanced value. -/

namespace Sys2Proof.Machine

/-- SYS nnn (R100): a no-op. -/
def execSys (_nnn : Addr12) (s : State) : Result := .next s

/-- RET (R101). -/
def execRet (s : State) : Result := s.pop

/-- JP nnn (R102). -/
def execJp (nnn : Addr12) (s : State) : Result :=
  if targetOk (addrOf nnn) then .next (s.jump (addrOf nnn)) else raise (.invalidAddress (addrOf nnn)) s

/-- JP V0, nnn (R103). -/
def execJpV0 (nnn : Addr12) (s : State) : Result :=
  if targetOk (targetV0 nnn s) then .next (s.jump (targetV0 nnn s)) else raise (.invalidAddress (targetV0 nnn s)) s

/-- CALL nnn (R104): the target is checked before the stack (D11, log entry 14). -/
def execCall (nnn : Addr12) (s : State) : Result :=
  if targetOk (addrOf nnn) then s.pushJump (addrOf nnn) else raise (.invalidAddress (addrOf nnn)) s

/-- SE Vx, nn (R105). -/
def execSeByte (x : Nibble) (nn : Byte) (s : State) : Result := .next (s.skipIf (s.reg x == nn))

/-- SNE Vx, nn (R106). -/
def execSneByte (x : Nibble) (nn : Byte) (s : State) : Result := .next (s.skipIf (s.reg x != nn))

/-- SE Vx, Vy (R107). -/
def execSeReg (x y : Nibble) (s : State) : Result := .next (s.skipIf (s.reg x == s.reg y))

/-- SNE Vx, Vy (R108). -/
def execSneReg (x y : Nibble) (s : State) : Result := .next (s.skipIf (s.reg x != s.reg y))

end Sys2Proof.Machine
end

