-- ==== Sys2Proof/Machine/Display.lean ====
section
/-! DEFINITION. Display, keypad and timer instructions (44_display_keys_timers.md). -/

namespace Sys2Proof.Machine

/-! ### The display -/

/-- `DISP[row][col]` (10_state.md R29). -/
def Display.get (d : Display) (row : Fin 32) (col : Fin 64) : Bool := d[row][col]

/-- `DISP[row][col] <- not DISP[row][col]` (R162). -/
def Display.toggle (d : Display) (row : Fin 32) (col : Fin 64) : Display :=
  d.set row ((d[row]).set col (!d.get row col))

/-- Every pixel off (R160). -/
def Display.clear : Display := Vector.replicate 32 (Vector.replicate 64 false)

/-- The row of sprite row `r` (R161). -/
def spriteRow (cy : Byte) (r : Nat) : Fin 32 := ⟨(cy.toNat + r) % 32, Nat.mod_lt _ (by decide)⟩

/-- The column of sprite bit `j`, `j = 0` at bit 7 (R161; bit order D19, log entry 19). -/
def spriteCol (cx : Byte) (j : Nat) : Fin 64 := ⟨(cx.toNat + j) % 64, Nat.mod_lt _ (by decide)⟩

/-- What a draw carries along: the display and the collision so far. -/
abbrev Canvas := Display × Bool

/-- One set sprite bit (R162): a lit pixel is a collision; the pixel toggles. -/
def drawPixel (row : Fin 32) (col : Fin 64) (c : Canvas) : Canvas :=
  (c.1.toggle row col, c.2 || c.1.get row col)

/-- The first `k` bits of one sprite row, `j = 0` first (R162). -/
def drawBits (b : Byte) (row : Fin 32) (cx : Byte) (c : Canvas) : Nat → Canvas
  | 0 => c
  | j + 1 =>
    if b.getLsbD (7 - j) then drawPixel row (spriteCol cx j) (drawBits b row cx c j) else drawBits b row cx c j

/-- The first `n` rows of the sprite at `a` (R162). -/
def drawRows (m : Memory) (a : Nat) (cx cy : Byte) (c : Canvas) : Nat → Canvas
  | 0 => c
  | r + 1 => drawBits (Memory.read m (a + r)) (spriteRow cy r) cx (drawRows m a cx cy c r) 8

/-- CLS (R160). -/
def execCls (s : State) : Result := .next { s with disp := Display.clear }

/-- The display and the collision of DRW Vx, Vy, n at this state (R161, R162); Vx and Vy are read first. -/
def State.drawn (s : State) (x y n : Nibble) : Canvas :=
  drawRows s.mem s.i.toNat (s.reg x) (s.reg y) (s.disp, false) n.toNat

/-- DRW Vx, Vy, n (R162). -/
def execDrw (x y n : Nibble) (s : State) : Result :=
  if spriteRangeOk s.i.toNat n.toNat then
    .next ({ s with disp := (s.drawn x y n).1 }.setReg vf (boolByte (s.drawn x y n).2))
  else raise (.memoryAccess s.i n.toNat) s

/-! ### The keypad -/

/-- `KEYS[k]` (10_state.md R30). -/
def State.key (s : State) (k : Nibble) : Bool := s.keys[k.toNat]

/-- Skip if the key Vx names is down (`want` true) or up (false); a value over 0xF raises InvalidKey (R163, R164). -/
def skipOnKey (want : Bool) (x : Nibble) (s : State) : Result :=
  if (s.reg x).toNat > 0xF then raise (.invalidKey (s.reg x)) s
  else .next (s.skipIf (s.key ((s.reg x).setWidth 4) == want))

/-- SKP Vx (R163). -/
def execSkp (x : Nibble) (s : State) : Result := skipOnKey true x s

/-- SKNP Vx (R164). -/
def execSknp (x : Nibble) (s : State) : Result := skipOnKey false x s

/-- LD Vx, K (R168): consume a captured key, or rewind and wait. -/
def execLdVxK (x : Nibble) (s : State) : Result :=
  match s.pend with
  | some k => .next { s.setReg x (k.setWidth 8) with pend := none }
  | none => .next { s.rewind with wait := true }

/-! ### The timers -/

/-- LD Vx, DT (R165). -/
def execLdVxDt (x : Nibble) (s : State) : Result := .next (s.setReg x s.dt)

/-- LD DT, Vx (R166). -/
def execLdDt (x : Nibble) (s : State) : Result := .next { s with dt := s.reg x }

/-- LD ST, Vx (R167): the tone edge is the orchestrator's (R185). -/
def execLdSt (x : Nibble) (s : State) : Result := .next { s with st := s.reg x }

end Sys2Proof.Machine
end

