-- ==== Sys2Proof/Machine/Index.lean ====
section
/-! DEFINITION. Address register and memory transfer instructions (43_index_memory.md). Every check comes before the
first write (D12, log entry 15). -/

namespace Sys2Proof.Machine

/-- LD I, nnn (R140). -/
def execLdI (nnn : Addr12) (s : State) : Result := .next { s with i := BitVec.ofNat 16 (addrOf nnn) }

/-- ADD I, Vx (R141): mod 2^16, no flag. -/
def execAddI (x : Nibble) (s : State) : Result := .next { s with i := s.i + (s.reg x).setWidth 16 }

/-- LD F, Vx (R142). -/
def execLdF (x : Nibble) (s : State) : Result :=
  if (s.reg x).toNat > 15 then raise (.invalidDigit (s.reg x)) s
  else .next { s with i := glyphAddr (s.reg x) }

/-- LD B, Vx (R143): I is not changed. -/
def execLdB (x : Nibble) (s : State) : Result :=
  if dataRangeOk s.i.toNat 3 then
    .next { s with mem := Memory.writeBytes s.mem s.i.toNat (bcdDigits (s.reg x)) }
  else raise (.memoryAccess s.i 3) s

/-- `I <- I + x + 1` (R144, R145). -/
def State.advanceI (s : State) (x : Nibble) : State := { s with i := s.i + BitVec.ofNat 16 (blockLen x) }

/-- LD [I], Vx (R144). -/
def execLdStore (x : Nibble) (s : State) : Result :=
  if dataRangeOk s.i.toNat (blockLen x) then
    .next ({ s with mem := Memory.writeBytes s.mem s.i.toNat (s.regsUpTo x) }.advanceI x)
  else raise (.memoryAccess s.i (blockLen x)) s

/-- `V[k] <- MemRead(a + k, 1)` for the first `n` registers, ascending (R145). -/
def State.loadRegs (s : State) (a : Nat) : Nat → State
  | 0 => s
  | n + 1 => (s.loadRegs a n).setReg (BitVec.ofNat 4 n) (Memory.read s.mem (a + n))

/-- LD Vx, [I] (R145). -/
def execLdLoad (x : Nibble) (s : State) : Result :=
  if dataRangeOk s.i.toNat (blockLen x) then
    .next ((s.loadRegs s.i.toNat (blockLen x)).advanceI x)
  else raise (.memoryAccess s.i (blockLen x)) s

end Sys2Proof.Machine
end

