-- ==== Sys2Proof/Machine/Timers.lean ====
section
/-! DEFINITION. Time and the timers (10_state.md R28; 45_cycle_orchestrator.md R181, R185). Times are exact rationals in
seconds (D16, log entry 4). The arithmetic is written on numerators and denominators, so that it evaluates on numerals;
Laws/Timers.lean proves that these functions are the sum, the floor of the quotient and the remainder of the rationals. -/

namespace Sys2Proof.Machine

/-- The value of the parameter TIMER_PERIOD: 1/60 s exactly (D16). Unsafe at deltas that land exactly on a multiple of
the period. Log entry 4. -/
def timerPeriod : Rat := mkRat 1 60

/-- `a + b`. -/
def timeAdd (a b : Rat) : Rat := mkRat (a.num * b.den + b.num * a.den) (a.den * b.den)

/-- `floor(t / p)` for a period p > 0, as a number of whole periods (R181). -/
def wholePeriods (t p : Rat) : Nat := ((t.num * p.den) / (t.den * p.num)).toNat

/-- `t - k * p` (R181). -/
def timeRest (t p : Rat) (k : Nat) : Rat := mkRat (t.num * p.den - k * p.num * t.den) (t.den * p.den)

/-- A timer after `k` ticks, each floored at zero (R28, R181). -/
def ticked (timer : Byte) (k : Nat) : Byte := BitVec.ofNat 8 (timer.toNat - k)

/-- How many ticks `execute_cycle(delta)` makes at this state (R181). -/
def State.ticksDue (s : State) (delta : Rat) : Nat := wholePeriods (timeAdd s.acc delta) timerPeriod

/-- `tick_timers(delta)` (R181). -/
def State.tickTimers (s : State) (delta : Rat) : State :=
  { s with
    acc := timeRest (timeAdd s.acc delta) timerPeriod (s.ticksDue delta)
    dt := ticked s.dt (s.ticksDue delta)
    st := ticked s.st (s.ticksDue delta) }

/-- `tone_edge()` (R185): an event on transition edges only. -/
def State.toneEdge (s : State) : State :=
  if s.st ≠ 0#8 ∧ s.tone = false then { s.emit .startTone with tone := true }
  else if s.st = 0#8 ∧ s.tone = true then { s.emit .stopTone with tone := false }
  else s

end Sys2Proof.Machine
end

