-- ==== Sys2Proof/Machine/Orchestrator.lean ====
section
/-! DEFINITION. The cycle orchestrator (45_cycle_orchestrator.md): the host's operations, one of which is one step of
the machine (00_scope.md R6, D1). -/

namespace Sys2Proof.Machine

/-! ### The cycle -/

/-- Fetch, decode and execute exactly one instruction (R180, R182). The fetch advance stands when decode or the
instruction raises (20_memory.md R55); a DecodeError carries what 60_exceptions.md R201 says. -/
def State.runOne (s : State) : Result :=
  match s.fetchWord with
  | none => raise (.memoryAccess s.pc 2) s
  | some w =>
    match decode w with
    | .ok i => exec i s.advance
    | .error _ => raise (.decodeError w s.pc s.advance.snapshot) s.advance

/-- The part of a cycle after the ticks: nothing is fetched while waiting (R182). -/
def State.cycleBody (s : State) : Result := if s.wait then .next s else s.runOne

/-- The end of a cycle: the tone edge check, unless the cycle raised an error (R183, R185; D17, log entry 18). -/
def endCycle (o : Result) : Result :=
  match o with
  | .next t => .next (if t.fault = none then t.toneEdge else t)
  | .fault r => .fault r
  | .refused r => .refused r

/-- `execute_cycle(delta)` (R180, refusals R189). -/
def executeCycle (delta : Rat) (s : State) : Result :=
  if s.loaded = false then .refused .notLoaded
  else if s.fault ≠ none then .refused .faultLatched
  else if delta.num < 0 then .refused .negativeDelta
  else endCycle (s.tickTimers delta).cycleBody

/-! ### The other host operations -/

/-- `load(P)` (R190): a program too long is a LoadError, which is returned and changes nothing else (D31, log entry 23). -/
def loadProgram (program : List Byte) (s : State) : Result :=
  if s.loaded then .refused .alreadyLoaded
  else if program.length > Config.maxProgramLen then
    .next (s.emit (.error (.programTooLarge program.length)))
  else
    .next { s with mem := Memory.writeBytes s.mem Config.programBase program, loaded := true }

/-- `KEYS[k] <- b`. -/
def State.setKey (s : State) (k : Nibble) (b : Bool) : State := { s with keys := s.keys.set k.toNat b }

/-- The capture of a key-down (R186): only while waiting with nothing pending. -/
def State.capture (s : State) (k : Nibble) : State :=
  if s.wait = true ∧ s.pend = none then { s with pend := some k, wait := false } else s

/-- `key_down(k)` (R186). -/
def keyDown (k : Nat) (s : State) : Result :=
  if k < Config.numKeys then .next ((s.setKey (BitVec.ofNat 4 k) true).capture (BitVec.ofNat 4 k))
  else .refused .keyOutOfRange

/-- `key_up(k)` (R187). -/
def keyUp (k : Nat) (s : State) : Result :=
  if k < Config.numKeys then .next (s.setKey (BitVec.ofNat 4 k) false) else .refused .keyOutOfRange

/-- The display query (00_scope.md R6; R191): a read-only snapshot, at any time. -/
def queryDisplay (s : State) : Display := s.disp

/-! ### One step -/

/-- One host operation (00_scope.md R6, 20_memory.md R54: atomic). -/
def perform (op : HostOp) (s : State) : Result :=
  match op with
  | .load program => loadProgram program s
  | .reset => resetOp s
  | .executeCycle delta => executeCycle delta s
  | .keyDown k => keyDown k s
  | .keyUp k => keyUp k s

/-- The next operation the host makes and the state it meets: the head of `inbox`, or, with nothing listed,
`execute_cycle(hostDelta)` (log entry 6). -/
def State.nextOp (s : State) : HostOp × State :=
  match s.inbox with
  | [] => (.executeCycle s.hostDelta, s)
  | op :: rest => (op, { s with inbox := rest })

/-- One step: the host's next operation. -/
def hostStep (s : State) : Result := perform s.nextOp.1 s.nextOp.2

/-- The state the host reaches for a step to be a cycle: a program loaded, no error latched, not waiting, nothing in
`inbox`, and a delta that is not negative. -/
def State.readyToRun (s : State) : State :=
  { s with
    loaded := true, fault := none, wait := false, inbox := []
    hostDelta := if s.hostDelta.num < 0 then 0 else s.hostDelta }

end Sys2Proof.Machine
end

