-- ==== Sys2Proof/Machine/Step.lean ====
section
/-! DEFINITION. The step, and placing an instruction where the step fetches. -/

namespace Sys2Proof.Machine

/-- One step of the machine: one host operation (00_scope.md R6, D1). -/
def step (s : State) : Host.Outcome State Fault Refusal := hostStep s

/-- The state with an instruction's bytes at PC and everything else a cycle needs (log entry 25): this stands for the
host's `load` (45_cycle_orchestrator.md R190), after which the next step is `execute_cycle` of that instruction. -/
def State.withFetchWord (s : State) (nbits w : Nat) : State :=
  { s.readyToRun with mem := Memory.writeBytes s.mem s.pc.toNat (tableBytes nbits w) }

end Sys2Proof.Machine
end

