-- ==== Sys2Proof/Safety.lean ====
section
/-! DEFINITION. The terms claims are stated in: what a step leaves unchanged, what raising an error is, which parts of
the state an instruction may write, the sprite a draw puts down, and the invariant of 10_state.md R34. -/

namespace Sys2Proof.Safety

open Sys2Proof.Machine

/-! ### Frames -/

/-- A part of the state. -/
inductive Part where
  /-- Every byte of memory. -/
  | memory
  /-- V0 to VF. -/
  | regs
  /-- I. -/
  | index
  /-- PC. -/
  | pc
  /-- STACK and SP. -/
  | stack
  /-- DT. -/
  | delayTimer
  /-- ST. -/
  | soundTimer
  /-- Every pixel of DISP. -/
  | display
  /-- KEYS. -/
  | keys
  /-- WAIT. -/
  | waiting
  /-- PEND. -/
  | pending
  /-- ACC. -/
  | time
  /-- TONE. -/
  | tone
  /-- LOADED. -/
  | loaded
  /-- FAULT. -/
  | fault
  /-- The outputs handed to the host. -/
  | outputs
  /-- The counter of random draws (model's own). -/
  | draws
  /-- The host's coming operations and delta (model's own). -/
  | host
  deriving DecidableEq, Repr

/-- The part is the same in both states; memory and display byte by byte and pixel by pixel. -/
def Part.same (p : Part) (s t : State) : Prop :=
  match p with
  | .memory => ∀ a, Memory.read t.mem a = Memory.read s.mem a
  | .regs => ∀ r, t.reg r = s.reg r
  | .index => t.i = s.i
  | .pc => t.pc = s.pc
  | .stack => t.sp = s.sp ∧ t.stack = s.stack
  | .delayTimer => t.dt = s.dt
  | .soundTimer => t.st = s.st
  | .display => ∀ row col, t.disp.get row col = s.disp.get row col
  | .keys => t.keys = s.keys
  | .waiting => t.wait = s.wait
  | .pending => t.pend = s.pend
  | .time => t.acc = s.acc
  | .tone => t.tone = s.tone
  | .loaded => t.loaded = s.loaded
  | .fault => t.fault = s.fault
  | .outputs => t.out = s.out
  | .draws => t.draws = s.draws
  | .host => t.inbox = s.inbox ∧ t.hostDelta = s.hostDelta

/-- Every part of the state is unchanged but the listed ones. -/
def UnchangedBut (changed : List Part) (s t : State) : Prop :=
  ∀ p, p ∉ changed → p.same s t

/-- Every register is unchanged but the listed ones. -/
def RegsUnchangedBut (changed : List Nibble) (s t : State) : Prop :=
  ∀ r, r ∉ changed → t.reg r = s.reg r

/-- Every byte of memory outside `[base, base + len)` is unchanged. -/
def MemoryUnchangedOutside (base len : Nat) (s t : State) : Prop :=
  ∀ a, (a < base ∨ base + len ≤ a) → Memory.read t.mem a = Memory.read s.mem a

/-- Register `x` holds `b`, and nothing else has changed. -/
def WritesOnlyReg (x : Nibble) (b : Byte) (s t : State) : Prop :=
  t.reg x = b ∧ RegsUnchangedBut [x] s t ∧ UnchangedBut [.regs] s t

/-- The outcome raises `e` (00_scope.md R10; 45_cycle_orchestrator.md R183): a next state in which FAULT latches `e`, `e`
is returned to the host, and nothing else has changed. -/
def Raises (e : Error) (s : State) (o : Result) : Prop :=
  ∃ t, o = .next t ∧ t.fault = some e ∧ t.out = s.out ++ [.error e] ∧ UnchangedBut [.fault, .outputs] s t

/-! ### Which instruction may write what (10_state.md R22, R35) -/

/-- The instructions that produce a flag in VF (R22). -/
def producesFlag : Instr → Bool
  | .addReg _ _ | .sub _ _ | .subn _ _ | .shr _ _ | .shl _ _ | .drw _ _ _ => true
  | _ => false

/-- VF is a destination the instruction names (R22). -/
def destinationVf : Instr → Bool
  | .ldByte x _ | .addByte x _ | .rnd x _ => x == 0xF#4
  | .ldReg x _ | .orReg x _ | .andReg x _ | .xorReg x _ => x == 0xF#4
  | .ldVxDt x | .ldVxK x | .ldLoad x => x == 0xF#4
  | _ => false

/-- The instructions that write I (R23, R35). -/
def writesIndex : Instr → Bool
  | .ldI _ | .addI _ | .ldF _ | .ldStore _ | .ldLoad _ => true
  | _ => false

/-- The instructions that write memory (20_memory.md R50). -/
def writesMemory : Instr → Bool
  | .ldB _ | .ldStore _ => true
  | _ => false

/-- The instructions that access the stack (R25). -/
def accessesStack : Instr → Bool
  | .call _ | .ret => true
  | _ => false

/-- The error kinds an instruction can raise (60_exceptions.md R200, the column "raised by"). -/
def mayRaise : Instr → Error → Bool
  | .ret, .emptyCallStack => true
  | .call _, .stackOverflow => true
  | .jp _, .invalidAddress _ => true
  | .jpV0 _, .invalidAddress _ => true
  | .call _, .invalidAddress _ => true
  | .drw _ _ _, .memoryAccess _ _ => true
  | .ldB _, .memoryAccess _ _ => true
  | .ldStore _, .memoryAccess _ _ => true
  | .ldLoad _, .memoryAccess _ _ => true
  | .skp _, .invalidKey _ => true
  | .sknp _, .invalidKey _ => true
  | .ldF _, .invalidDigit _ => true
  | _, _ => false

/-! ### The sprite (44_display_keys_timers.md R161) -/

/-- Some set bit of the `n`-row sprite at `a` lands on the pixel when drawn at column `cx`, row `cy`. -/
def SpriteCovers (m : Memory) (a : Nat) (cx cy : Byte) (n : Nat) (row : Fin 32) (col : Fin 64) : Prop :=
  ∃ r < n, ∃ j < 8, row.val = (cy.toNat + r) % 32 ∧ col.val = (cx.toNat + j) % 64 ∧
    (Memory.read m (a + r)).getLsbD (7 - j) = true

/-! ### The host's contract and the reset values -/

/-- The preconditions of `execute_cycle(delta)` (45_cycle_orchestrator.md R180). -/
def HostMayCycle (delta : Rat) (s : State) : Prop := s.loaded = true ∧ s.fault = none ∧ 0 ≤ delta

/-- The word at PC (20_memory.md R52, R55). -/
def wordAtPc (s : State) : Word := wordOfBytes (Memory.read s.mem s.pc.toNat) (Memory.read s.mem (s.pc.toNat + 1))

/-- Every field of 10_state.md R36 holds its reset value. -/
structure HoldsResetValues (s : State) : Prop where
  font : ∀ a < 0x050, Memory.read s.mem a = fontTable.getD a 0
  zeroMemory : ∀ a, 0x050 ≤ a → Memory.read s.mem a = 0x00#8
  regs : ∀ r, s.reg r = 0x00#8
  index : s.i = 0x0000#16
  pc : s.pc = 0x0200#16
  stack : ∀ k : Fin 16, s.stack[k] = 0x0000#16
  sp : s.sp = 0x00#8
  timers : s.dt = 0x00#8 ∧ s.st = 0x00#8
  display : ∀ row col, s.disp.get row col = false
  keys : ∀ k, s.key k = false
  waiting : s.wait = false
  pending : s.pend = none
  time : s.acc = 0
  tone : s.tone = false
  loaded : s.loaded = false
  fault : s.fault = none

/-! ### The invariant (10_state.md R34) -/

/-- What holds in every reachable state: R34 (a) to (d), the range of PC (R24), the return addresses in use (R34 (c)),
the canonical form of memory and the range of ACC (R33). -/
structure Inv (s : State) : Prop where
  /-- R34 (a). -/
  spInRange : s.sp.toNat ≤ Config.stackDepth
  /-- R34 (b). -/
  pendingNotWaiting : s.pend ≠ none → s.wait = false
  /-- R34 (c). -/
  pcFrom : Config.programBase ≤ s.pc.toNat
  /-- R24: PC never exceeds 0x1002. -/
  pcTo : s.pc.toNat ≤ 0x1002
  /-- R34 (c): pushed return addresses are fetch-advanced PCs. -/
  returns : ∀ k : Fin 16, k.val < s.sp.toNat → 0x202 ≤ s.stack[k].toNat ∧ s.stack[k].toNat ≤ 0x1000
  /-- R34 (d), R61: nothing below 0x200 is written. -/
  lowMemory : ∀ a < Config.programBase, Memory.read s.mem a = Memory.resetByte a
  /-- Memory is in canonical form. -/
  memoryWf : Memory.wf s.mem = true
  /-- R33, R181: ACC is nonnegative and below TIMER_PERIOD. -/
  accRange : 0 ≤ s.acc ∧ s.acc < 1 / 60

end Sys2Proof.Safety
end

