-- ==== Sys2Proof/Certificates/Slice0/Obligations.lean ====
section
/-! DEFINITION. The statements for the provers. Each docstring names the rule of spec/ it formalises; a clause that rests
on a decision the spec marks as its own (92_eei_decisions.md) or on this model's choice names the log entry. -/

open Sys2Proof Sys2Proof.Machine Sys2Proof.Safety

/-! ### Encoding and decode (30_encoding.md) -/

/-- The worked encodings of R88 and three more words written out from R82 (the patterns: D2, log entry 10). -/
def Obligations.SpecWordsDecode : Prop :=
  decode 0x00E0#16 = .ok .cls ∧ decode 0x600A#16 = .ok (.ldByte 0x0 0x0A) ∧ decode 0x1200#16 = .ok (.jp 0x200) ∧
  decode 0xD345#16 = .ok (.drw 0x3 0x4 0x5) ∧ decode 0xFA55#16 = .ok (.ldStore 0xA) ∧
  decode 0x8124#16 = .ok (.addReg 0x1 0x2) ∧ decode 0x3000#16 = .ok (.seByte 0x0 0x00) ∧
  decode 0x0123#16 = .ok (.sys 0x123) ∧ decode 0xF50A#16 = .ok (.ldVxK 0x5) ∧ decode 0xE29E#16 = .ok (.skp 0x2)

/-- R82, R83: every well-formed instruction decodes from its own word, each operand at each value. -/
def Obligations.DecodeOfEncode : Prop :=
  ∀ i : Instr, i.wellFormed = true → decode (encode i) = .ok i

/-- R83: a word that decodes is the encoding of what it decodes to, which is well-formed: one meaning per word. -/
def Obligations.EncodeOfDecode : Prop :=
  ∀ (w : Word) (i : Instr), decode w = .ok i → i.wellFormed = true ∧ encode i = w

/-- R84, R85 (D4, D5; log entry 11): exactly the listed words are undefined. -/
def Obligations.UndefinedWordsRejected : Prop :=
  ∀ w : Word, (∃ r, decode w = .error r) ↔
    w = 0x0000#16 ∨
    ((w.toNat / 0x1000 = 0x5 ∨ w.toNat / 0x1000 = 0x9) ∧ w.toNat % 0x10 ≠ 0) ∨
    (w.toNat / 0x1000 = 0x8 ∧ w.toNat % 0x10 ∈ [0x8, 0x9, 0xA, 0xB, 0xC, 0xD, 0xF]) ∨
    (w.toNat / 0x1000 = 0xE ∧ w.toNat % 0x100 ∉ [0x9E, 0xA1]) ∨
    (w.toNat / 0x1000 = 0xF ∧ w.toNat % 0x100 ∉ [0x07, 0x0A, 0x15, 0x18, 0x1E, 0x29, 0x33, 0x55, 0x65])

/-! ### The cycle (45_cycle_orchestrator.md R180 to R185) -/

/-- R55, R180, R182: when the word at PC decodes to `i`, the step is the timer ticks, the fetch advance, `exec i`, and
then the tone check (`endCycle`). The step is the next operation in `inbox`, or `execute_cycle(hostDelta)` where none is
listed: that is the model's choice, log entry 6. -/
def Obligations.StepRunsDecodedInstruction : Prop :=
  ∀ (s : State) (i : Instr), s.wait = false → s.pc.toNat + 1 ≤ 0xFFF → decode (wordAtPc s) = .ok i →
    (s.inbox = [] → HostMayCycle s.hostDelta s →
      step s = endCycle (exec i (s.tickTimers s.hostDelta).advance)) ∧
    (∀ delta rest, s.inbox = .executeCycle delta :: rest → HostMayCycle delta s →
      step s = endCycle (exec i ({ s with inbox := rest }.tickTimers delta).advance))

/-- R84, R183, R201 (D18, D23; log entries 7, 12): an undefined word latches a DecodeError with the word, its address and
the registers; this cycle's ticks (`tickTimers`, whose arithmetic `TicksCountWholePeriods` states) and the fetch advance
have happened, and nothing else. -/
def Obligations.UndefinedWordLatchesDecodeError : Prop :=
  ∀ (s : State) (delta : Rat) (r : DecodeReject), HostMayCycle delta s → s.wait = false → s.pc.toNat + 1 ≤ 0xFFF →
    decode (wordAtPc s) = .error r →
    ∃ t e, executeCycle delta s = .next t ∧
      e = Error.decodeError (wordAtPc s) s.pc { v := s.v, i := s.i, sp := s.sp, pc := s.pc + 2#16 } ∧
      t.fault = some e ∧ t.out = s.out ++ [.error e] ∧ t.pc = s.pc + 2#16 ∧
      UnchangedBut [.pc, .fault, .outputs] (s.tickTimers delta) t ∧
      UnchangedBut [.pc, .delayTimer, .soundTimer, .time, .fault, .outputs] s t

/-- R56, R183 (D13, D18; log entries 7, 16): a fetch whose second byte lies outside memory raises MemoryAccessError and
leaves PC; this cycle's ticks have happened, and nothing else. -/
def Obligations.FetchPastMemoryRaises : Prop :=
  ∀ (s : State) (delta : Rat), HostMayCycle delta s → s.wait = false → 0xFFF ≤ s.pc.toNat →
    ∃ t, executeCycle delta s = .next t ∧ t.fault = some (.memoryAccess s.pc 2) ∧
      t.out = s.out ++ [.error (.memoryAccess s.pc 2)] ∧
      UnchangedBut [.fault, .outputs] (s.tickTimers delta) t ∧
      UnchangedBut [.delayTimer, .soundTimer, .time, .fault, .outputs] s t

/-- R181, R182, R213 (D16; log entry 4): a waiting cycle fetches nothing and leaves PC, registers, memory, stack and
display; the timers still tick, ACC with them. -/
def Obligations.WaitingCycleOnlyTicks : Prop :=
  ∀ (s : State) (delta : Rat), HostMayCycle delta s → s.wait = true →
    ∃ t, executeCycle delta s = .next t ∧
      t.dt.toNat = s.dt.toNat - ⌊(s.acc + delta) * 60⌋₊ ∧ t.st.toNat = s.st.toNat - ⌊(s.acc + delta) * 60⌋₊ ∧
      UnchangedBut [.tone, .outputs] (s.tickTimers delta) t ∧
      UnchangedBut [.delayTimer, .soundTimer, .time, .tone, .outputs] s t

/-- R181 (D16; log entry 4): one tick per whole period of 1/60 s accumulated, each floored at zero; ACC keeps the
remainder, nonnegative and below a period. -/
def Obligations.TicksCountWholePeriods : Prop :=
  ∀ (s : State) (delta : Rat), 0 ≤ s.acc → 0 ≤ delta →
    ∃ k : Nat, (k : ℚ) ≤ (s.acc + delta) * 60 ∧ (s.acc + delta) * 60 < k + 1 ∧
      (s.tickTimers delta).acc = s.acc + delta - k / 60 ∧
      0 ≤ (s.tickTimers delta).acc ∧ (s.tickTimers delta).acc < 1 / 60 ∧
      (s.tickTimers delta).dt.toNat = (fun n => n - 1)^[k] s.dt.toNat ∧
      (s.tickTimers delta).st.toNat = (fun n => n - 1)^[k] s.st.toNat ∧
      UnchangedBut [.time, .delayTimer, .soundTimer] s (s.tickTimers delta)

/-- R185 (D17; log entry 18): after a cycle that did not raise, the tone is on exactly if ST is not zero, and an event
was emitted exactly on a change. -/
def Obligations.ToneFollowsSoundTimer : Prop :=
  ∀ (s t : State) (delta : Rat), executeCycle delta s = .next t → t.fault = none →
    (t.tone = true ↔ t.st ≠ 0#8) ∧
    t.out = s.out ++ (if t.tone = s.tone then [] else if t.tone = true then [.startTone] else [.stopTone])

/-- R183, R202 (D12, D17, D18; log entries 7, 15, 18): after a cycle that raised, the error is latched and returned, this
cycle's ticks and, unless fetch itself raised, the fetch advance have happened, and nothing else. -/
def Obligations.FailedCycleState : Prop :=
  ∀ (s t : State) (delta : Rat) (e : Error), executeCycle delta s = .next t → t.fault = some e →
    t.out = s.out ++ [.error e] ∧ t.pc = (if 0xFFF ≤ s.pc.toNat then s.pc else s.pc + 2#16) ∧
    UnchangedBut [.pc, .fault, .outputs] (s.tickTimers delta) t ∧
    UnchangedBut [.pc, .delayTimer, .soundTimer, .time, .fault, .outputs] s t

/-- R180, R184, R229: when the host keeps its contract and SP is in its range (R25), a cycle answers a next state, an
error included: no cycle is refused and none stops the machine. -/
def Obligations.CyclesAlwaysAnswer : Prop :=
  ∀ (s : State) (delta : Rat), HostMayCycle delta s → s.sp.toNat ≤ 16 → ∃ t, executeCycle delta s = .next t

/-! ### The other host operations -/

/-- R220, R36 (D32; log entry 24): reset gives every field its reset value from any state, latched error or not, and
emits `stop_tone` exactly if a tone was playing. -/
def Obligations.ResetFromAnyState : Prop :=
  ∀ (s : State) (rest : List HostOp), s.inbox = .reset :: rest →
    ∃ t, step s = .next t ∧ HoldsResetValues t ∧ t.inbox = rest ∧
      t.out = s.out ++ (if s.tone = true then [.stopTone] else [])

/-- R36, R221 (PC: D15, log entry 17; ACC: log entry 4; FAULT: log entry 7; font: log entry 1): the constructed state
holds the reset values. -/
def Obligations.ResetStateHoldsResetValues : Prop := HoldsResetValues State.reset

/-- R190, W-1, W-2 (D31; log entry 23): a program of at most 3584 bytes stands at 0x200 byte for byte, nothing else
changes but LOADED; a longer one is a LoadError that leaves the state. -/
def Obligations.LoadPlacesProgram : Prop :=
  ∀ (s : State) (program : List Byte), s.loaded = false →
    (program.length ≤ 3584 → ∃ t, loadProgram program s = .next t ∧
      (∀ k (h : k < program.length), Memory.read t.mem (0x200 + k) = program[k]) ∧
      MemoryUnchangedOutside 0x200 program.length s t ∧ t.loaded = true ∧ UnchangedBut [.memory, .loaded] s t) ∧
    (3584 < program.length → ∃ t, loadProgram program s = .next t ∧
      t.out = s.out ++ [.error (.programTooLarge program.length)] ∧ UnchangedBut [.outputs] s t)

/-- R186, R187: a key-down sets its key and is captured exactly while waiting with nothing pending; a key-up clears its
key and touches neither WAIT nor PEND. -/
def Obligations.KeyEvents : Prop :=
  ∀ (s : State) (k : Nibble),
    (∃ t, keyDown k.toNat s = .next t ∧ (∀ q, t.key q = if q = k then true else s.key q) ∧
      (s.wait = true → s.pend = none → t.pend = some k ∧ t.wait = false) ∧
      (s.wait = false ∨ s.pend ≠ none → t.pend = s.pend ∧ t.wait = s.wait) ∧
      UnchangedBut [.keys, .waiting, .pending] s t) ∧
    (∃ t, keyUp k.toNat s = .next t ∧ (∀ q, t.key q = if q = k then false else s.key q) ∧ UnchangedBut [.keys] s t)

/-- R189 (D26; log entry 9), R184 (D18): the host calls outside the contract are refused, each by its name. -/
def Obligations.ContractViolationsRefused : Prop :=
  ∀ (s : State) (delta : Rat) (program : List Byte) (k : Nat),
    (s.loaded = false → executeCycle delta s = .refused .notLoaded) ∧
    (s.loaded = true → s.fault ≠ none → executeCycle delta s = .refused .faultLatched) ∧
    (s.loaded = true → s.fault = none → delta < 0 → executeCycle delta s = .refused .negativeDelta) ∧
    (s.loaded = true → loadProgram program s = .refused .alreadyLoaded) ∧
    (15 < k → keyDown k s = .refused .keyOutOfRange ∧ keyUp k s = .refused .keyOutOfRange)

/-! ### Control flow (41_control_flow.md) -/

/-- R100: SYS changes nothing. R105 to R108: SE and SNE skip the next word exactly on their condition and change nothing
else. -/
def Obligations.SysAndSkips : Prop :=
  ∀ (s : State) (nnn : Addr12) (x y : Nibble) (nn : Byte),
    (∃ t, exec (.sys nnn) s = .next t ∧ UnchangedBut [] s t) ∧
    (∃ t, exec (.seByte x nn) s = .next t ∧ t.pc = (if s.reg x = nn then s.pc + 2#16 else s.pc) ∧
      UnchangedBut [.pc] s t) ∧
    (∃ t, exec (.sneByte x nn) s = .next t ∧ t.pc = (if s.reg x = nn then s.pc else s.pc + 2#16) ∧
      UnchangedBut [.pc] s t) ∧
    (∃ t, exec (.seReg x y) s = .next t ∧ t.pc = (if s.reg x = s.reg y then s.pc + 2#16 else s.pc) ∧
      UnchangedBut [.pc] s t) ∧
    (∃ t, exec (.sneReg x y) s = .next t ∧ t.pc = (if s.reg x = s.reg y then s.pc else s.pc + 2#16) ∧
      UnchangedBut [.pc] s t)

/-- R102, R103, R60 (latching the error: D18, log entry 7): JP and JP V0 set PC to a target in [0x200, 4096), the sum
exact; any other target raises InvalidAddress. -/
def Obligations.JumpsGoToCheckedTargets : Prop :=
  ∀ (s : State) (nnn : Addr12),
    (0x200 ≤ nnn.toNat → ∃ t, exec (.jp nnn) s = .next t ∧ t.pc.toNat = nnn.toNat ∧ UnchangedBut [.pc] s t) ∧
    (nnn.toNat < 0x200 → Raises (.invalidAddress nnn.toNat) s (exec (.jp nnn) s)) ∧
    (0x200 ≤ nnn.toNat + (s.reg 0x0#4).toNat → nnn.toNat + (s.reg 0x0#4).toNat < 4096 →
      ∃ t, exec (.jpV0 nnn) s = .next t ∧ t.pc.toNat = nnn.toNat + (s.reg 0x0#4).toNat ∧ UnchangedBut [.pc] s t) ∧
    (nnn.toNat + (s.reg 0x0#4).toNat < 0x200 ∨ 4096 ≤ nnn.toNat + (s.reg 0x0#4).toNat →
      Raises (.invalidAddress (nnn.toNat + (s.reg 0x0#4).toNat)) s (exec (.jpV0 nnn) s))

/-- R104 (order of the checks: D11, log entry 14; latching: log entry 7): CALL pushes the fetch-advanced PC and jumps; a
bad target, then a full stack, raises. -/
def Obligations.CallPushesAndJumps : Prop :=
  ∀ (s : State) (nnn : Addr12),
    (0x200 ≤ nnn.toNat → ∀ h : s.sp.toNat < 16, ∃ t, exec (.call nnn) s = .next t ∧ t.pc.toNat = nnn.toNat ∧
      t.sp.toNat = s.sp.toNat + 1 ∧ t.stack[s.sp.toNat] = s.pc ∧
      (∀ k : Fin 16, k.val ≠ s.sp.toNat → t.stack[k] = s.stack[k]) ∧ UnchangedBut [.pc, .stack] s t) ∧
    (nnn.toNat < 0x200 → Raises (.invalidAddress nnn.toNat) s (exec (.call nnn) s)) ∧
    (0x200 ≤ nnn.toNat → 16 ≤ s.sp.toNat → Raises .stackOverflow s (exec (.call nnn) s))

/-- R101, R25 (popped entry kept: D25, log entry 22; latching: log entry 7): RET returns to the last pushed address; an
empty stack raises; with SP over 16, which R25 excludes, the model stops by name (log entry 21). -/
def Obligations.RetReturns : Prop :=
  ∀ s : State,
    (0 < s.sp.toNat → ∀ h : s.sp.toNat - 1 < 16, ∃ t, exec .ret s = .next t ∧ t.pc = s.stack[s.sp.toNat - 1] ∧
      t.sp.toNat = s.sp.toNat - 1 ∧ t.stack = s.stack ∧ UnchangedBut [.pc, .stack] s t) ∧
    (s.sp.toNat = 0 → Raises .emptyCallStack s (exec .ret s)) ∧
    (16 < s.sp.toNat → exec .ret s = .fault (.noStackEntry (s.sp.toNat - 1)))

/-- W-9, R104, R101: a CALL and the RET after it give back PC and SP; only the stack slot CALL used may differ. -/
def Obligations.CallThenRetRestoresPc : Prop :=
  ∀ (s : State) (nnn : Addr12), 0x200 ≤ nnn.toNat → s.sp.toNat < 16 →
    ∃ t u, exec (.call nnn) s = .next t ∧ exec .ret t = .next u ∧ u.pc = s.pc ∧ u.sp = s.sp ∧
      (∀ k : Fin 16, k.val ≠ s.sp.toNat → u.stack[k] = s.stack[k]) ∧ UnchangedBut [.stack] s u

/-! ### Loads, arithmetic, logic, shifts, random (42_alu.md) -/

/-- R122, R123, R125, R126, R127: the loads and the logic instructions write Vx and nothing else, VF only as Vx. -/
def Obligations.LoadsAndLogicWriteOneRegister : Prop :=
  ∀ (s : State) (x y : Nibble) (nn : Byte),
    (∃ t, exec (.ldByte x nn) s = .next t ∧ WritesOnlyReg x nn s t) ∧
    (∃ t, exec (.ldReg x y) s = .next t ∧ WritesOnlyReg x (s.reg y) s t) ∧
    (∃ t, exec (.orReg x y) s = .next t ∧ WritesOnlyReg x (s.reg x ||| s.reg y) s t) ∧
    (∃ t, exec (.andReg x y) s = .next t ∧ WritesOnlyReg x (s.reg x &&& s.reg y) s t) ∧
    (∃ t, exec (.xorReg x y) s = .next t ∧ WritesOnlyReg x (s.reg x ^^^ s.reg y) s t)

/-- R124: ADD Vx, nn wraps silently and writes no flag. -/
def Obligations.AddByteWrapsWithoutFlag : Prop :=
  ∀ (s : State) (x : Nibble) (nn : Byte), ∃ t, exec (.addByte x nn) s = .next t ∧
    (t.reg x).toNat = ((s.reg x).toNat + nn.toNat) % 256 ∧ RegsUnchangedBut [x] s t ∧ UnchangedBut [.regs] s t

/-- R128, R121 (with x = 0xF VF ends as the flag: D7, log entry 3): ADD Vx, Vy; VF = 1 exactly if there is no overflow. -/
def Obligations.AddRegistersInverseCarry : Prop :=
  ∀ (s : State) (x y : Nibble), ∃ t, exec (.addReg x y) s = .next t ∧
    (x ≠ 0xF#4 → (t.reg x).toNat = ((s.reg x).toNat + (s.reg y).toNat) % 256) ∧
    (t.reg 0xF#4 = if (s.reg x).toNat + (s.reg y).toNat ≤ 255 then 1#8 else 0#8) ∧
    RegsUnchangedBut [x, 0xF#4] s t ∧ UnchangedBut [.regs] s t

/-- R129, R121 (D7, log entry 3): SUB; VF = 1 exactly if there is no borrow. -/
def Obligations.SubNoBorrowFlag : Prop :=
  ∀ (s : State) (x y : Nibble), ∃ t, exec (.sub x y) s = .next t ∧
    (x ≠ 0xF#4 → ((t.reg x).toNat : ℤ) = (((s.reg x).toNat : ℤ) - (s.reg y).toNat) % 256) ∧
    (t.reg 0xF#4 = if (s.reg y).toNat ≤ (s.reg x).toNat then 1#8 else 0#8) ∧
    RegsUnchangedBut [x, 0xF#4] s t ∧ UnchangedBut [.regs] s t

/-- R130, R121 (D7, log entry 3): SUBN; VF = 1 exactly if a borrow occurred, the opposite polarity of SUB. -/
def Obligations.SubnBorrowFlag : Prop :=
  ∀ (s : State) (x y : Nibble), ∃ t, exec (.subn x y) s = .next t ∧
    (x ≠ 0xF#4 → ((t.reg x).toNat : ℤ) = (((s.reg y).toNat : ℤ) - (s.reg x).toNat) % 256) ∧
    (t.reg 0xF#4 = if (s.reg y).toNat < (s.reg x).toNat then 1#8 else 0#8) ∧
    RegsUnchangedBut [x, 0xF#4] s t ∧ UnchangedBut [.regs] s t

/-- R131, R132, R121 (SHIFT_SOURCE = InPlace: D6, log entry 2; x = 0xF: D7, log entry 3): SHR and SHL shift Vx by one,
y ignored, and VF takes the bit shifted out. -/
def Obligations.ShiftsInPlace : Prop :=
  ∀ (s : State) (x y : Nibble),
    (∃ t, exec (.shr x y) s = .next t ∧ (x ≠ 0xF#4 → (t.reg x).toNat = (s.reg x).toNat / 2) ∧
      (t.reg 0xF#4).toNat = (s.reg x).toNat % 2 ∧ RegsUnchangedBut [x, 0xF#4] s t ∧ UnchangedBut [.regs] s t) ∧
    (∃ t, exec (.shl x y) s = .next t ∧ (x ≠ 0xF#4 → (t.reg x).toNat = (s.reg x).toNat * 2 % 256) ∧
      (t.reg 0xF#4).toNat = (s.reg x).toNat / 128 ∧ RegsUnchangedBut [x, 0xF#4] s t ∧ UnchangedBut [.regs] s t)

/-- R131, R132, R121 for both values of SHIFT_SOURCE and of VF_WRITE_ORDER (D6, D7; log entries 2, 3): the operand is
Vx or Vy; with x = 0xF, VF ends as the flag or as the result. -/
def Obligations.ShiftsUnderEveryParameter : Prop :=
  ∀ (s : State) (src : Config.ShiftSource) (order : Config.VfWriteOrder) (x y : Nibble) (a : Byte),
    a = (match src with | .inPlace => s.reg x | .fromVy => s.reg y) →
    (((s.shiftRight src order x y).reg x).toNat =
      if x = 0xF#4 ∧ order = .flagLast then a.toNat % 2 else a.toNat / 2) ∧
    (x ≠ 0xF#4 → ((s.shiftRight src order x y).reg 0xF#4).toNat = a.toNat % 2) ∧
    (((s.shiftLeft src order x y).reg x).toNat =
      if x = 0xF#4 ∧ order = .flagLast then a.toNat / 128 else a.toNat * 2 % 256) ∧
    (x ≠ 0xF#4 → ((s.shiftLeft src order x y).reg 0xF#4).toNat = a.toNat / 128)

/-- R133: RND writes some byte, masked, to Vx and nothing else of the machine; the byte is a free value (log entry 5),
of which only the mask is known. -/
def Obligations.RandomIsMasked : Prop :=
  ∀ (s : State) (x : Nibble) (nn : Byte), ∃ t, exec (.rnd x nn) s = .next t ∧
    (∃ draw : Byte, t.reg x = draw &&& nn) ∧ t.reg x &&& ~~~nn = 0 ∧
    RegsUnchangedBut [x] s t ∧ UnchangedBut [.regs, .draws] s t

/-! ### Address register and memory transfer (43_index_memory.md) -/

/-- R140, R141: LD I and ADD I write I, mod 2^16, and no flag. -/
def Obligations.IndexLoadAndAdd : Prop :=
  ∀ (s : State) (nnn : Addr12) (x : Nibble),
    (∃ t, exec (.ldI nnn) s = .next t ∧ t.i.toNat = nnn.toNat ∧ UnchangedBut [.index] s t) ∧
    (∃ t, exec (.addI x) s = .next t ∧ t.i.toNat = (s.i.toNat + (s.reg x).toNat) % 65536 ∧ UnchangedBut [.index] s t)

/-- R142 (latching: D18, log entry 7): LD F gives the address of the digit's glyph; a value over 15 raises. -/
def Obligations.FontAddress : Prop :=
  ∀ (s : State) (x : Nibble),
    ((s.reg x).toNat ≤ 15 → ∃ t, exec (.ldF x) s = .next t ∧ t.i.toNat = (s.reg x).toNat * 5 ∧
      UnchangedBut [.index] s t) ∧
    (15 < (s.reg x).toNat → Raises (.invalidDigit (s.reg x)) s (exec (.ldF x) s))

/-- R143, R58 (bound: D8, log entry 13; digit order: D20, log entry 20; latching: log entry 7): LD B stores three decimal
digits whose value is Vx's and changes no other byte and not I; outside the bounds it raises. -/
def Obligations.BcdStore : Prop :=
  ∀ (s : State) (x : Nibble),
    (0x200 ≤ s.i.toNat → s.i.toNat + 3 < 4096 → ∃ t, exec (.ldB x) s = .next t ∧
      (Memory.read t.mem s.i.toNat).toNat * 100 + (Memory.read t.mem (s.i.toNat + 1)).toNat * 10 +
        (Memory.read t.mem (s.i.toNat + 2)).toNat = (s.reg x).toNat ∧
      (∀ k < 3, (Memory.read t.mem (s.i.toNat + k)).toNat ≤ 9) ∧
      MemoryUnchangedOutside s.i.toNat 3 s t ∧ UnchangedBut [.memory] s t) ∧
    (s.i.toNat < 0x200 ∨ 4096 ≤ s.i.toNat + 3 → Raises (.memoryAccess s.i 3) s (exec (.ldB x) s))

/-- R144, R58 (bound: D8, log entry 13; latching: log entry 7): LD [I], Vx stores V0 to Vx at I ascending, changes no
other byte and advances I by x + 1; outside the bounds it raises. -/
def Obligations.BlockStore : Prop :=
  ∀ (s : State) (x : Nibble),
    (0x200 ≤ s.i.toNat → s.i.toNat + (x.toNat + 1) < 4096 → ∃ t, exec (.ldStore x) s = .next t ∧
      (∀ r : Nibble, r ≤ x → Memory.read t.mem (s.i.toNat + r.toNat) = s.reg r) ∧
      t.i.toNat = s.i.toNat + x.toNat + 1 ∧
      MemoryUnchangedOutside s.i.toNat (x.toNat + 1) s t ∧ UnchangedBut [.memory, .index] s t) ∧
    (s.i.toNat < 0x200 ∨ 4096 ≤ s.i.toNat + (x.toNat + 1) →
      Raises (.memoryAccess s.i (x.toNat + 1)) s (exec (.ldStore x) s))

/-- R145, R58 (bound: D8, log entry 13; latching: log entry 7): LD Vx, [I] loads V0 to Vx from I ascending, leaves the
other registers and memory and advances I by x + 1; outside the bounds it raises. -/
def Obligations.BlockLoad : Prop :=
  ∀ (s : State) (x : Nibble),
    (0x200 ≤ s.i.toNat → s.i.toNat + (x.toNat + 1) < 4096 → ∃ t, exec (.ldLoad x) s = .next t ∧
      (∀ r : Nibble, t.reg r = if r ≤ x then Memory.read s.mem (s.i.toNat + r.toNat) else s.reg r) ∧
      t.i.toNat = s.i.toNat + x.toNat + 1 ∧ UnchangedBut [.regs, .index] s t) ∧
    (s.i.toNat < 0x200 ∨ 4096 ≤ s.i.toNat + (x.toNat + 1) →
      Raises (.memoryAccess s.i (x.toNat + 1)) s (exec (.ldLoad x) s))

/-- R144, R145, R62: what LD [I], Vx stored, a later LD Vx, [I] from the same address loads back, in any state whose
memory still reads the same. -/
def Obligations.StoreThenLoadBack : Prop :=
  ∀ (s : State) (x : Nibble), 0x200 ≤ s.i.toNat → s.i.toNat + (x.toNat + 1) < 4096 →
    ∃ t, exec (.ldStore x) s = .next t ∧
      ∀ u : State, u.i = s.i → (∀ a, Memory.read u.mem a = Memory.read t.mem a) →
        ∃ w, exec (.ldLoad x) u = .next w ∧ (∀ r : Nibble, r ≤ x → w.reg r = s.reg r) ∧ w.i = t.i

/-- R64 (D28, log entry 26), R52: the next fetch at the place of a store reads the stored bytes, big-endian. -/
def Obligations.StoredWordIsFetched : Prop :=
  ∀ (s : State) (x : Nibble), 1 ≤ x.toNat → 0x200 ≤ s.i.toNat → s.i.toNat + (x.toNat + 1) < 4096 →
    ∃ t, exec (.ldStore x) s = .next t ∧ ({ t with pc := s.i } : State).fetchWord = some (s.reg 0x0#4 ++ s.reg 0x1#4)

/-! ### Display, keys, timers (44_display_keys_timers.md) -/

/-- R160: CLS turns every pixel off and changes nothing else. -/
def Obligations.ClearDisplay : Prop :=
  ∀ s : State, ∃ t, exec .cls s = .next t ∧ (∀ row col, t.disp.get row col = false) ∧ UnchangedBut [.display] s t

/-- R161, R162, R59 (bit order: D19, log entry 19; bound: D9, log entry 13; latching: log entry 7): DRW flips exactly
the pixels the sprite covers, wrapping on each axis; VF = 1 exactly if a covered pixel was lit; a sprite reaching past
memory raises. -/
def Obligations.DrawFlipsCoveredPixels : Prop :=
  ∀ (s : State) (x y n : Nibble),
    (s.i.toNat + n.toNat ≤ 4096 → ∃ t, exec (.drw x y n) s = .next t ∧
      (∀ row col, SpriteCovers s.mem s.i.toNat (s.reg x) (s.reg y) n.toNat row col →
        t.disp.get row col = !s.disp.get row col) ∧
      (∀ row col, ¬ SpriteCovers s.mem s.i.toNat (s.reg x) (s.reg y) n.toNat row col →
        t.disp.get row col = s.disp.get row col) ∧
      ((∃ row col, SpriteCovers s.mem s.i.toNat (s.reg x) (s.reg y) n.toNat row col ∧ s.disp.get row col = true) →
        t.reg 0xF#4 = 1#8) ∧
      ((¬ ∃ row col, SpriteCovers s.mem s.i.toNat (s.reg x) (s.reg y) n.toNat row col ∧ s.disp.get row col = true) →
        t.reg 0xF#4 = 0#8) ∧
      RegsUnchangedBut [0xF#4] s t ∧ UnchangedBut [.regs, .display] s t) ∧
    (4096 < s.i.toNat + n.toNat → Raises (.memoryAccess s.i n.toNat) s (exec (.drw x y n) s))

/-- W-4, R162: the same sprite drawn twice at the same place restores the display. The second draw's VF follows R162's
pseudocode: 1 exactly if some covered pixel was off before the first draw, which on a clear display is the case exactly
if the sprite has a set bit (R162's corner case states that without the clear display: log entry 28). -/
def Obligations.DrawTwiceRestoresDisplay : Prop :=
  ∀ (s : State) (x y n : Nibble), x ≠ 0xF#4 → y ≠ 0xF#4 → s.i.toNat + n.toNat ≤ 4096 →
    ∃ t u, exec (.drw x y n) s = .next t ∧ exec (.drw x y n) t = .next u ∧ u.disp = s.disp ∧
      (u.reg 0xF#4 = 1#8 ↔ ∃ row col, SpriteCovers s.mem s.i.toNat (s.reg x) (s.reg y) n.toNat row col ∧
        s.disp.get row col = false) ∧
      (u.reg 0xF#4 = 0#8 ∨ u.reg 0xF#4 = 1#8) ∧
      ((∀ row col, s.disp.get row col = false) →
        (u.reg 0xF#4 = 1#8 ↔ ∃ r < n.toNat, Memory.read s.mem (s.i.toNat + r) ≠ 0#8)) ∧
      RegsUnchangedBut [0xF#4] s u ∧ UnchangedBut [.regs] s u

/-- R162's corner case read for EVERY display, the sentence "the second draw sets VF = 1 exactly when the sprite has at
least one set bit": expected to FAIL, since over lit pixels the first draw turns them off and the second meets none lit
(log entry 28). -/
def Obligations.SecondDrawFlagsEverySetSprite : Prop :=
  ∀ (s t u : State) (x y n : Nibble), x ≠ 0xF#4 → y ≠ 0xF#4 → exec (.drw x y n) s = .next t → t.fault = none →
    exec (.drw x y n) t = .next u →
    (u.reg 0xF#4 = 1#8 ↔ ∃ r < n.toNat, Memory.read s.mem (s.i.toNat + r) ≠ 0#8)

/-- R163, R164 (latching: D18, log entry 7): SKP and SKNP skip exactly if the key Vx names is down, or up; a value over
0xF raises InvalidKey. -/
def Obligations.SkipsOnKeys : Prop :=
  ∀ (s : State) (x k : Nibble),
    ((s.reg x).toNat = k.toNat → ∃ t, exec (.skp x) s = .next t ∧
      t.pc = (if s.key k = true then s.pc + 2#16 else s.pc) ∧ UnchangedBut [.pc] s t) ∧
    ((s.reg x).toNat = k.toNat → ∃ t, exec (.sknp x) s = .next t ∧
      t.pc = (if s.key k = true then s.pc else s.pc + 2#16) ∧ UnchangedBut [.pc] s t) ∧
    (15 < (s.reg x).toNat → Raises (.invalidKey (s.reg x)) s (exec (.skp x) s)) ∧
    (15 < (s.reg x).toNat → Raises (.invalidKey (s.reg x)) s (exec (.sknp x) s))

/-- R165, R166, R167: the timer instructions move a byte between Vx and DT or ST and change nothing else. -/
def Obligations.TimerInstructions : Prop :=
  ∀ (s : State) (x : Nibble),
    (∃ t, exec (.ldVxDt x) s = .next t ∧ WritesOnlyReg x s.dt s t) ∧
    (∃ t, exec (.ldDt x) s = .next t ∧ t.dt = s.reg x ∧ UnchangedBut [.delayTimer] s t) ∧
    (∃ t, exec (.ldSt x) s = .next t ∧ t.st = s.reg x ∧ UnchangedBut [.soundTimer] s t)

/-- R168: LD Vx, K consumes a captured key, or else rewinds PC by 2 and starts waiting. -/
def Obligations.WaitForKey : Prop :=
  ∀ (s : State) (x : Nibble),
    (∀ k, s.pend = some k → ∃ t, exec (.ldVxK x) s = .next t ∧ (t.reg x).toNat = k.toNat ∧ t.pend = none ∧
      RegsUnchangedBut [x] s t ∧ UnchangedBut [.regs, .pending] s t) ∧
    (s.pend = none → ∃ t, exec (.ldVxK x) s = .next t ∧ t.pc = s.pc - 2#16 ∧ t.wait = true ∧
      UnchangedBut [.pc, .waiting] s t)

/-- R188, R225, W-8: the cycle that meets LD Vx, K waits at it; a key-down ends the wait without writing Vx; the next
cycle writes the key to Vx and moves on. -/
def Obligations.KeyReachesRegisterOneCycleLater : Prop :=
  ∀ (s : State) (x k : Nibble) (d1 d2 : Rat), HostMayCycle d1 s → 0 ≤ d2 → s.wait = false → s.pend = none →
    s.pc.toNat + 1 ≤ 0xFFF → decode (wordAtPc s) = .ok (.ldVxK x) →
    ∃ t u w, executeCycle d1 s = .next t ∧ t.wait = true ∧ t.pc = s.pc ∧
      keyDown k.toNat t = .next u ∧ u.wait = false ∧ u.pend = some k ∧ u.reg x = s.reg x ∧
      executeCycle d2 u = .next w ∧ (w.reg x).toNat = k.toNat ∧ w.pend = none ∧ w.wait = false ∧ w.pc = s.pc + 2#16

/-! ### Rules about the whole machine -/

/-- R22: an instruction that is no flag producer and has no explicit destination VF leaves VF. -/
def Obligations.OnlyFlagInstructionsWriteVf : Prop :=
  ∀ (i : Instr) (s t : State), exec i s = .next t → producesFlag i = false → destinationVf i = false →
    t.reg 0xF#4 = s.reg 0xF#4

/-- R29: no instruction but CLS and DRW writes DISP, and neither load nor a key event does. -/
def Obligations.OnlyClsAndDrwWriteDisplay : Prop :=
  (∀ (i : Instr) (s t : State), exec i s = .next t → i ≠ .cls → (∀ x y n, i ≠ .drw x y n) → t.disp = s.disp) ∧
  (∀ (op : HostOp) (s t : State), perform op s = .next t → op ≠ .reset → (∀ d, op ≠ .executeCycle d) →
    t.disp = s.disp)

/-- R30: no instruction writes KEYS, LD Vx, K does not read it, and of the host's operations only key events and reset
change it. -/
def Obligations.KeysBelongToKeyEvents : Prop :=
  (∀ (i : Instr) (s t : State), exec i s = .next t → t.keys = s.keys) ∧
  (∀ (s t : State) (x : Nibble) (ks : Vector Bool 16), exec (.ldVxK x) s = .next t →
    exec (.ldVxK x) { s with keys := ks } = .next { t with keys := ks }) ∧
  (∀ (op : HostOp) (s t : State), perform op s = .next t → t.keys ≠ s.keys →
    op = .reset ∨ ∃ k, op = .keyDown k ∨ op = .keyUp k)

/-- R31, R32: WAIT is set only by LD Vx, K and cleared only by a capturing key-down and by reset; PEND is set by a
key-down that meets WAIT with nothing pending and by nothing else, and cleared only when LD Vx, K consumes it and by
reset. -/
def Obligations.WaitAndPendTransitions : Prop :=
  (∀ (i : Instr) (s t : State), exec i s = .next t →
    (t.wait ≠ s.wait → t.wait = true ∧ ∃ x, i = .ldVxK x) ∧
    (t.pend ≠ s.pend → t.pend = none ∧ ∃ x k, i = .ldVxK x ∧ s.pend = some k ∧ (t.reg x).toNat = k.toNat)) ∧
  (∀ (op : HostOp) (s t : State), perform op s = .next t →
    (s.wait = true → t.wait = false → op = .reset ∨ ∃ k : Nibble, op = .keyDown k.toNat ∧ s.pend = none ∧ t.pend = some k) ∧
    (s.wait = false → t.wait = true → ∃ d, op = .executeCycle d) ∧
    (∀ k, t.pend = some k → s.pend ≠ some k → op = .keyDown k.toNat ∧ s.wait = true ∧ s.pend = none) ∧
    (s.pend ≠ none → t.pend = none → op = .reset ∨ ∃ d, op = .executeCycle d)) ∧
  (∀ (s : State) (k : Nibble), s.wait = true → s.pend = none →
    ∃ t, perform (.keyDown k.toNat) s = .next t ∧ t.pend = some k ∧ t.wait = false) ∧
  (∀ s : State, ∃ t, perform .reset s = .next t ∧ t.pend = none ∧ t.wait = false)

/-- R23, R25, R28, R33, R35, R50: which instruction may write I, memory, the stack and the timers; none writes ACC, TONE,
LOADED or the host's side. -/
def Obligations.InstructionsWriteOnlyTheirState : Prop :=
  ∀ (i : Instr) (s t : State), exec i s = .next t →
    (writesIndex i = false → t.i = s.i) ∧
    (writesMemory i = false → ∀ a, Memory.read t.mem a = Memory.read s.mem a) ∧
    (accessesStack i = false → t.sp = s.sp ∧ t.stack = s.stack) ∧
    ((∀ x, i ≠ .ldDt x) → t.dt = s.dt) ∧ ((∀ x, i ≠ .ldSt x) → t.st = s.st) ∧
    t.acc = s.acc ∧ t.tone = s.tone ∧ t.loaded = s.loaded ∧ t.inbox = s.inbox ∧ t.hostDelta = s.hostDelta

/-- R61, R26: no instruction writes a byte below 0x200, the font table among them. -/
def Obligations.LowMemoryNeverWritten : Prop :=
  ∀ (i : Instr) (s t : State) (a : Nat), exec i s = .next t → a < 0x200 →
    Memory.read t.mem a = Memory.read s.mem a

/-- R200 (the kinds; labels D22, log entry 12), R202 (D12, log entry 15): an instruction raises only an error the table
lists for it, and when it raises, nothing else has changed. -/
def Obligations.ErrorsArePreciseAndListed : Prop :=
  ∀ (i : Instr) (s t : State) (e : Error), exec i s = .next t → s.fault = none → t.fault = some e →
    mayRaise i e = true ∧ t.out = s.out ++ [.error e] ∧ UnchangedBut [.fault, .outputs] s t

/-- R82, R205, R207: with SP in its range (R25), every instruction answers a next state: none is refused, none stops the
machine, whatever the operands. -/
def Obligations.EveryInstructionAnswers : Prop :=
  ∀ (i : Instr) (s : State), s.sp.toNat ≤ 16 → ∃ t, exec i s = .next t

/-- R50, R26: the canonical form of memory, every listed address inside 0x000 to 0xFFF, is kept by every step from every
state (the form is the model's, log entry 27). -/
def Obligations.MemoryFormKeptByEveryStep : Prop :=
  ∀ s t : State, Memory.wf s.mem = true → step s = .next t → Memory.wf t.mem = true

/-- R34, R24, R33: the invariant holds in the constructed state. -/
def Obligations.InvariantAtReset : Prop := Inv State.reset

/-- R34 (a) to (d), R24, R33: every step, whatever operation the host makes, keeps the invariant. -/
def Obligations.InvariantKeptByEveryStep : Prop :=
  ∀ s t : State, Inv s → step s = .next t → Inv t
end

