-- ==== Sys2Proof/Laws/State.lean ====
section
/-! SUPPORT. Small lemmas about State: one per field per update, and what a register reads after a write. -/

namespace Sys2Proof.Machine

variable (s : State)

/-! ### setReg -/

@[simp] theorem State.setReg_mem (r : Nibble) (b : Byte) : (s.setReg r b).mem = s.mem := rfl
@[simp] theorem State.setReg_v (r : Nibble) (b : Byte) : (s.setReg r b).v = s.v.set r.toNat b := rfl
@[simp] theorem State.setReg_i (r : Nibble) (b : Byte) : (s.setReg r b).i = s.i := rfl
@[simp] theorem State.setReg_pc (r : Nibble) (b : Byte) : (s.setReg r b).pc = s.pc := rfl
@[simp] theorem State.setReg_stack (r : Nibble) (b : Byte) : (s.setReg r b).stack = s.stack := rfl
@[simp] theorem State.setReg_sp (r : Nibble) (b : Byte) : (s.setReg r b).sp = s.sp := rfl
@[simp] theorem State.setReg_dt (r : Nibble) (b : Byte) : (s.setReg r b).dt = s.dt := rfl
@[simp] theorem State.setReg_st (r : Nibble) (b : Byte) : (s.setReg r b).st = s.st := rfl
@[simp] theorem State.setReg_disp (r : Nibble) (b : Byte) : (s.setReg r b).disp = s.disp := rfl
@[simp] theorem State.setReg_keys (r : Nibble) (b : Byte) : (s.setReg r b).keys = s.keys := rfl
@[simp] theorem State.setReg_wait (r : Nibble) (b : Byte) : (s.setReg r b).wait = s.wait := rfl
@[simp] theorem State.setReg_pend (r : Nibble) (b : Byte) : (s.setReg r b).pend = s.pend := rfl
@[simp] theorem State.setReg_acc (r : Nibble) (b : Byte) : (s.setReg r b).acc = s.acc := rfl
@[simp] theorem State.setReg_tone (r : Nibble) (b : Byte) : (s.setReg r b).tone = s.tone := rfl
@[simp] theorem State.setReg_loaded (r : Nibble) (b : Byte) : (s.setReg r b).loaded = s.loaded := rfl
@[simp] theorem State.setReg_fault (r : Nibble) (b : Byte) : (s.setReg r b).fault = s.fault := rfl
@[simp] theorem State.setReg_draws (r : Nibble) (b : Byte) : (s.setReg r b).draws = s.draws := rfl
@[simp] theorem State.setReg_inbox (r : Nibble) (b : Byte) : (s.setReg r b).inbox = s.inbox := rfl
@[simp] theorem State.setReg_hostDelta (r : Nibble) (b : Byte) : (s.setReg r b).hostDelta = s.hostDelta := rfl
@[simp] theorem State.setReg_out (r : Nibble) (b : Byte) : (s.setReg r b).out = s.out := rfl

/-! ### advance -/

@[simp] theorem State.advance_mem : (s.advance).mem = s.mem := rfl
@[simp] theorem State.advance_v : (s.advance).v = s.v := rfl
@[simp] theorem State.advance_i : (s.advance).i = s.i := rfl
@[simp] theorem State.advance_pc : (s.advance).pc = s.pc + 2#16 := rfl
@[simp] theorem State.advance_stack : (s.advance).stack = s.stack := rfl
@[simp] theorem State.advance_sp : (s.advance).sp = s.sp := rfl
@[simp] theorem State.advance_dt : (s.advance).dt = s.dt := rfl
@[simp] theorem State.advance_st : (s.advance).st = s.st := rfl
@[simp] theorem State.advance_disp : (s.advance).disp = s.disp := rfl
@[simp] theorem State.advance_keys : (s.advance).keys = s.keys := rfl
@[simp] theorem State.advance_wait : (s.advance).wait = s.wait := rfl
@[simp] theorem State.advance_pend : (s.advance).pend = s.pend := rfl
@[simp] theorem State.advance_acc : (s.advance).acc = s.acc := rfl
@[simp] theorem State.advance_tone : (s.advance).tone = s.tone := rfl
@[simp] theorem State.advance_loaded : (s.advance).loaded = s.loaded := rfl
@[simp] theorem State.advance_fault : (s.advance).fault = s.fault := rfl
@[simp] theorem State.advance_draws : (s.advance).draws = s.draws := rfl
@[simp] theorem State.advance_inbox : (s.advance).inbox = s.inbox := rfl
@[simp] theorem State.advance_hostDelta : (s.advance).hostDelta = s.hostDelta := rfl
@[simp] theorem State.advance_out : (s.advance).out = s.out := rfl

/-! ### rewind -/

@[simp] theorem State.rewind_mem : (s.rewind).mem = s.mem := rfl
@[simp] theorem State.rewind_v : (s.rewind).v = s.v := rfl
@[simp] theorem State.rewind_i : (s.rewind).i = s.i := rfl
@[simp] theorem State.rewind_pc : (s.rewind).pc = s.pc - 2#16 := rfl
@[simp] theorem State.rewind_stack : (s.rewind).stack = s.stack := rfl
@[simp] theorem State.rewind_sp : (s.rewind).sp = s.sp := rfl
@[simp] theorem State.rewind_dt : (s.rewind).dt = s.dt := rfl
@[simp] theorem State.rewind_st : (s.rewind).st = s.st := rfl
@[simp] theorem State.rewind_disp : (s.rewind).disp = s.disp := rfl
@[simp] theorem State.rewind_keys : (s.rewind).keys = s.keys := rfl
@[simp] theorem State.rewind_wait : (s.rewind).wait = s.wait := rfl
@[simp] theorem State.rewind_pend : (s.rewind).pend = s.pend := rfl
@[simp] theorem State.rewind_acc : (s.rewind).acc = s.acc := rfl
@[simp] theorem State.rewind_tone : (s.rewind).tone = s.tone := rfl
@[simp] theorem State.rewind_loaded : (s.rewind).loaded = s.loaded := rfl
@[simp] theorem State.rewind_fault : (s.rewind).fault = s.fault := rfl
@[simp] theorem State.rewind_draws : (s.rewind).draws = s.draws := rfl
@[simp] theorem State.rewind_inbox : (s.rewind).inbox = s.inbox := rfl
@[simp] theorem State.rewind_hostDelta : (s.rewind).hostDelta = s.hostDelta := rfl
@[simp] theorem State.rewind_out : (s.rewind).out = s.out := rfl

/-! ### jump -/

@[simp] theorem State.jump_mem (t : Nat) : (s.jump t).mem = s.mem := rfl
@[simp] theorem State.jump_v (t : Nat) : (s.jump t).v = s.v := rfl
@[simp] theorem State.jump_i (t : Nat) : (s.jump t).i = s.i := rfl
@[simp] theorem State.jump_pc (t : Nat) : (s.jump t).pc = BitVec.ofNat 16 t := rfl
@[simp] theorem State.jump_stack (t : Nat) : (s.jump t).stack = s.stack := rfl
@[simp] theorem State.jump_sp (t : Nat) : (s.jump t).sp = s.sp := rfl
@[simp] theorem State.jump_dt (t : Nat) : (s.jump t).dt = s.dt := rfl
@[simp] theorem State.jump_st (t : Nat) : (s.jump t).st = s.st := rfl
@[simp] theorem State.jump_disp (t : Nat) : (s.jump t).disp = s.disp := rfl
@[simp] theorem State.jump_keys (t : Nat) : (s.jump t).keys = s.keys := rfl
@[simp] theorem State.jump_wait (t : Nat) : (s.jump t).wait = s.wait := rfl
@[simp] theorem State.jump_pend (t : Nat) : (s.jump t).pend = s.pend := rfl
@[simp] theorem State.jump_acc (t : Nat) : (s.jump t).acc = s.acc := rfl
@[simp] theorem State.jump_tone (t : Nat) : (s.jump t).tone = s.tone := rfl
@[simp] theorem State.jump_loaded (t : Nat) : (s.jump t).loaded = s.loaded := rfl
@[simp] theorem State.jump_fault (t : Nat) : (s.jump t).fault = s.fault := rfl
@[simp] theorem State.jump_draws (t : Nat) : (s.jump t).draws = s.draws := rfl
@[simp] theorem State.jump_inbox (t : Nat) : (s.jump t).inbox = s.inbox := rfl
@[simp] theorem State.jump_hostDelta (t : Nat) : (s.jump t).hostDelta = s.hostDelta := rfl
@[simp] theorem State.jump_out (t : Nat) : (s.jump t).out = s.out := rfl

/-! ### emit -/

@[simp] theorem State.emit_mem (o : Output) : (s.emit o).mem = s.mem := rfl
@[simp] theorem State.emit_v (o : Output) : (s.emit o).v = s.v := rfl
@[simp] theorem State.emit_i (o : Output) : (s.emit o).i = s.i := rfl
@[simp] theorem State.emit_pc (o : Output) : (s.emit o).pc = s.pc := rfl
@[simp] theorem State.emit_stack (o : Output) : (s.emit o).stack = s.stack := rfl
@[simp] theorem State.emit_sp (o : Output) : (s.emit o).sp = s.sp := rfl
@[simp] theorem State.emit_dt (o : Output) : (s.emit o).dt = s.dt := rfl
@[simp] theorem State.emit_st (o : Output) : (s.emit o).st = s.st := rfl
@[simp] theorem State.emit_disp (o : Output) : (s.emit o).disp = s.disp := rfl
@[simp] theorem State.emit_keys (o : Output) : (s.emit o).keys = s.keys := rfl
@[simp] theorem State.emit_wait (o : Output) : (s.emit o).wait = s.wait := rfl
@[simp] theorem State.emit_pend (o : Output) : (s.emit o).pend = s.pend := rfl
@[simp] theorem State.emit_acc (o : Output) : (s.emit o).acc = s.acc := rfl
@[simp] theorem State.emit_tone (o : Output) : (s.emit o).tone = s.tone := rfl
@[simp] theorem State.emit_loaded (o : Output) : (s.emit o).loaded = s.loaded := rfl
@[simp] theorem State.emit_fault (o : Output) : (s.emit o).fault = s.fault := rfl
@[simp] theorem State.emit_draws (o : Output) : (s.emit o).draws = s.draws := rfl
@[simp] theorem State.emit_inbox (o : Output) : (s.emit o).inbox = s.inbox := rfl
@[simp] theorem State.emit_hostDelta (o : Output) : (s.emit o).hostDelta = s.hostDelta := rfl
@[simp] theorem State.emit_out (o : Output) : (s.emit o).out = s.out ++ [o] := rfl

/-! ### raised -/

@[simp] theorem State.raised_mem (e : Error) : (s.raised e).mem = s.mem := rfl
@[simp] theorem State.raised_v (e : Error) : (s.raised e).v = s.v := rfl
@[simp] theorem State.raised_i (e : Error) : (s.raised e).i = s.i := rfl
@[simp] theorem State.raised_pc (e : Error) : (s.raised e).pc = s.pc := rfl
@[simp] theorem State.raised_stack (e : Error) : (s.raised e).stack = s.stack := rfl
@[simp] theorem State.raised_sp (e : Error) : (s.raised e).sp = s.sp := rfl
@[simp] theorem State.raised_dt (e : Error) : (s.raised e).dt = s.dt := rfl
@[simp] theorem State.raised_st (e : Error) : (s.raised e).st = s.st := rfl
@[simp] theorem State.raised_disp (e : Error) : (s.raised e).disp = s.disp := rfl
@[simp] theorem State.raised_keys (e : Error) : (s.raised e).keys = s.keys := rfl
@[simp] theorem State.raised_wait (e : Error) : (s.raised e).wait = s.wait := rfl
@[simp] theorem State.raised_pend (e : Error) : (s.raised e).pend = s.pend := rfl
@[simp] theorem State.raised_acc (e : Error) : (s.raised e).acc = s.acc := rfl
@[simp] theorem State.raised_tone (e : Error) : (s.raised e).tone = s.tone := rfl
@[simp] theorem State.raised_loaded (e : Error) : (s.raised e).loaded = s.loaded := rfl
@[simp] theorem State.raised_fault (e : Error) : (s.raised e).fault = some e := rfl
@[simp] theorem State.raised_draws (e : Error) : (s.raised e).draws = s.draws := rfl
@[simp] theorem State.raised_inbox (e : Error) : (s.raised e).inbox = s.inbox := rfl
@[simp] theorem State.raised_hostDelta (e : Error) : (s.raised e).hostDelta = s.hostDelta := rfl
@[simp] theorem State.raised_out (e : Error) : (s.raised e).out = s.out ++ [.error e] := rfl

/-! ### advanceI -/

@[simp] theorem State.advanceI_mem (x : Nibble) : (s.advanceI x).mem = s.mem := rfl
@[simp] theorem State.advanceI_v (x : Nibble) : (s.advanceI x).v = s.v := rfl
@[simp] theorem State.advanceI_i (x : Nibble) : (s.advanceI x).i = s.i + BitVec.ofNat 16 (blockLen x) := rfl
@[simp] theorem State.advanceI_pc (x : Nibble) : (s.advanceI x).pc = s.pc := rfl
@[simp] theorem State.advanceI_stack (x : Nibble) : (s.advanceI x).stack = s.stack := rfl
@[simp] theorem State.advanceI_sp (x : Nibble) : (s.advanceI x).sp = s.sp := rfl
@[simp] theorem State.advanceI_dt (x : Nibble) : (s.advanceI x).dt = s.dt := rfl
@[simp] theorem State.advanceI_st (x : Nibble) : (s.advanceI x).st = s.st := rfl
@[simp] theorem State.advanceI_disp (x : Nibble) : (s.advanceI x).disp = s.disp := rfl
@[simp] theorem State.advanceI_keys (x : Nibble) : (s.advanceI x).keys = s.keys := rfl
@[simp] theorem State.advanceI_wait (x : Nibble) : (s.advanceI x).wait = s.wait := rfl
@[simp] theorem State.advanceI_pend (x : Nibble) : (s.advanceI x).pend = s.pend := rfl
@[simp] theorem State.advanceI_acc (x : Nibble) : (s.advanceI x).acc = s.acc := rfl
@[simp] theorem State.advanceI_tone (x : Nibble) : (s.advanceI x).tone = s.tone := rfl
@[simp] theorem State.advanceI_loaded (x : Nibble) : (s.advanceI x).loaded = s.loaded := rfl
@[simp] theorem State.advanceI_fault (x : Nibble) : (s.advanceI x).fault = s.fault := rfl
@[simp] theorem State.advanceI_draws (x : Nibble) : (s.advanceI x).draws = s.draws := rfl
@[simp] theorem State.advanceI_inbox (x : Nibble) : (s.advanceI x).inbox = s.inbox := rfl
@[simp] theorem State.advanceI_hostDelta (x : Nibble) : (s.advanceI x).hostDelta = s.hostDelta := rfl
@[simp] theorem State.advanceI_out (x : Nibble) : (s.advanceI x).out = s.out := rfl

/-! ### setKey -/

@[simp] theorem State.setKey_mem (k : Nibble) (b : Bool) : (s.setKey k b).mem = s.mem := rfl
@[simp] theorem State.setKey_v (k : Nibble) (b : Bool) : (s.setKey k b).v = s.v := rfl
@[simp] theorem State.setKey_i (k : Nibble) (b : Bool) : (s.setKey k b).i = s.i := rfl
@[simp] theorem State.setKey_pc (k : Nibble) (b : Bool) : (s.setKey k b).pc = s.pc := rfl
@[simp] theorem State.setKey_stack (k : Nibble) (b : Bool) : (s.setKey k b).stack = s.stack := rfl
@[simp] theorem State.setKey_sp (k : Nibble) (b : Bool) : (s.setKey k b).sp = s.sp := rfl
@[simp] theorem State.setKey_dt (k : Nibble) (b : Bool) : (s.setKey k b).dt = s.dt := rfl
@[simp] theorem State.setKey_st (k : Nibble) (b : Bool) : (s.setKey k b).st = s.st := rfl
@[simp] theorem State.setKey_disp (k : Nibble) (b : Bool) : (s.setKey k b).disp = s.disp := rfl
@[simp] theorem State.setKey_keys (k : Nibble) (b : Bool) : (s.setKey k b).keys = s.keys.set k.toNat b := rfl
@[simp] theorem State.setKey_wait (k : Nibble) (b : Bool) : (s.setKey k b).wait = s.wait := rfl
@[simp] theorem State.setKey_pend (k : Nibble) (b : Bool) : (s.setKey k b).pend = s.pend := rfl
@[simp] theorem State.setKey_acc (k : Nibble) (b : Bool) : (s.setKey k b).acc = s.acc := rfl
@[simp] theorem State.setKey_tone (k : Nibble) (b : Bool) : (s.setKey k b).tone = s.tone := rfl
@[simp] theorem State.setKey_loaded (k : Nibble) (b : Bool) : (s.setKey k b).loaded = s.loaded := rfl
@[simp] theorem State.setKey_fault (k : Nibble) (b : Bool) : (s.setKey k b).fault = s.fault := rfl
@[simp] theorem State.setKey_draws (k : Nibble) (b : Bool) : (s.setKey k b).draws = s.draws := rfl
@[simp] theorem State.setKey_inbox (k : Nibble) (b : Bool) : (s.setKey k b).inbox = s.inbox := rfl
@[simp] theorem State.setKey_hostDelta (k : Nibble) (b : Bool) : (s.setKey k b).hostDelta = s.hostDelta := rfl
@[simp] theorem State.setKey_out (k : Nibble) (b : Bool) : (s.setKey k b).out = s.out := rfl

/-! ### tickTimers -/

@[simp] theorem State.tickTimers_mem (delta : Rat) : (s.tickTimers delta).mem = s.mem := rfl
@[simp] theorem State.tickTimers_v (delta : Rat) : (s.tickTimers delta).v = s.v := rfl
@[simp] theorem State.tickTimers_i (delta : Rat) : (s.tickTimers delta).i = s.i := rfl
@[simp] theorem State.tickTimers_pc (delta : Rat) : (s.tickTimers delta).pc = s.pc := rfl
@[simp] theorem State.tickTimers_stack (delta : Rat) : (s.tickTimers delta).stack = s.stack := rfl
@[simp] theorem State.tickTimers_sp (delta : Rat) : (s.tickTimers delta).sp = s.sp := rfl
@[simp] theorem State.tickTimers_dt (delta : Rat) : (s.tickTimers delta).dt = ticked s.dt (s.ticksDue delta) := rfl
@[simp] theorem State.tickTimers_st (delta : Rat) : (s.tickTimers delta).st = ticked s.st (s.ticksDue delta) := rfl
@[simp] theorem State.tickTimers_disp (delta : Rat) : (s.tickTimers delta).disp = s.disp := rfl
@[simp] theorem State.tickTimers_keys (delta : Rat) : (s.tickTimers delta).keys = s.keys := rfl
@[simp] theorem State.tickTimers_wait (delta : Rat) : (s.tickTimers delta).wait = s.wait := rfl
@[simp] theorem State.tickTimers_pend (delta : Rat) : (s.tickTimers delta).pend = s.pend := rfl
@[simp] theorem State.tickTimers_acc (delta : Rat) : (s.tickTimers delta).acc = timeRest (timeAdd s.acc delta) timerPeriod (s.ticksDue delta) := rfl
@[simp] theorem State.tickTimers_tone (delta : Rat) : (s.tickTimers delta).tone = s.tone := rfl
@[simp] theorem State.tickTimers_loaded (delta : Rat) : (s.tickTimers delta).loaded = s.loaded := rfl
@[simp] theorem State.tickTimers_fault (delta : Rat) : (s.tickTimers delta).fault = s.fault := rfl
@[simp] theorem State.tickTimers_draws (delta : Rat) : (s.tickTimers delta).draws = s.draws := rfl
@[simp] theorem State.tickTimers_inbox (delta : Rat) : (s.tickTimers delta).inbox = s.inbox := rfl
@[simp] theorem State.tickTimers_hostDelta (delta : Rat) : (s.tickTimers delta).hostDelta = s.hostDelta := rfl
@[simp] theorem State.tickTimers_out (delta : Rat) : (s.tickTimers delta).out = s.out := rfl

/-! ### skipIf -/

@[simp] theorem State.skipIf_mem (c : Bool) : (s.skipIf c).mem = s.mem := by cases c <;> rfl
@[simp] theorem State.skipIf_v (c : Bool) : (s.skipIf c).v = s.v := by cases c <;> rfl
@[simp] theorem State.skipIf_i (c : Bool) : (s.skipIf c).i = s.i := by cases c <;> rfl
@[simp] theorem State.skipIf_stack (c : Bool) : (s.skipIf c).stack = s.stack := by cases c <;> rfl
@[simp] theorem State.skipIf_sp (c : Bool) : (s.skipIf c).sp = s.sp := by cases c <;> rfl
@[simp] theorem State.skipIf_dt (c : Bool) : (s.skipIf c).dt = s.dt := by cases c <;> rfl
@[simp] theorem State.skipIf_st (c : Bool) : (s.skipIf c).st = s.st := by cases c <;> rfl
@[simp] theorem State.skipIf_disp (c : Bool) : (s.skipIf c).disp = s.disp := by cases c <;> rfl
@[simp] theorem State.skipIf_keys (c : Bool) : (s.skipIf c).keys = s.keys := by cases c <;> rfl
@[simp] theorem State.skipIf_wait (c : Bool) : (s.skipIf c).wait = s.wait := by cases c <;> rfl
@[simp] theorem State.skipIf_pend (c : Bool) : (s.skipIf c).pend = s.pend := by cases c <;> rfl
@[simp] theorem State.skipIf_acc (c : Bool) : (s.skipIf c).acc = s.acc := by cases c <;> rfl
@[simp] theorem State.skipIf_tone (c : Bool) : (s.skipIf c).tone = s.tone := by cases c <;> rfl
@[simp] theorem State.skipIf_loaded (c : Bool) : (s.skipIf c).loaded = s.loaded := by cases c <;> rfl
@[simp] theorem State.skipIf_fault (c : Bool) : (s.skipIf c).fault = s.fault := by cases c <;> rfl
@[simp] theorem State.skipIf_draws (c : Bool) : (s.skipIf c).draws = s.draws := by cases c <;> rfl
@[simp] theorem State.skipIf_inbox (c : Bool) : (s.skipIf c).inbox = s.inbox := by cases c <;> rfl
@[simp] theorem State.skipIf_hostDelta (c : Bool) : (s.skipIf c).hostDelta = s.hostDelta := by cases c <;> rfl
@[simp] theorem State.skipIf_out (c : Bool) : (s.skipIf c).out = s.out := by cases c <;> rfl

/-! ### writeResultAndFlag -/

@[simp] theorem State.writeResultAndFlag_mem (o : Config.VfWriteOrder) (x : Nibble) (r f : Byte) : (s.writeResultAndFlag o x r f).mem = s.mem := by cases o <;> rfl
@[simp] theorem State.writeResultAndFlag_i (o : Config.VfWriteOrder) (x : Nibble) (r f : Byte) : (s.writeResultAndFlag o x r f).i = s.i := by cases o <;> rfl
@[simp] theorem State.writeResultAndFlag_pc (o : Config.VfWriteOrder) (x : Nibble) (r f : Byte) : (s.writeResultAndFlag o x r f).pc = s.pc := by cases o <;> rfl
@[simp] theorem State.writeResultAndFlag_stack (o : Config.VfWriteOrder) (x : Nibble) (r f : Byte) : (s.writeResultAndFlag o x r f).stack = s.stack := by cases o <;> rfl
@[simp] theorem State.writeResultAndFlag_sp (o : Config.VfWriteOrder) (x : Nibble) (r f : Byte) : (s.writeResultAndFlag o x r f).sp = s.sp := by cases o <;> rfl
@[simp] theorem State.writeResultAndFlag_dt (o : Config.VfWriteOrder) (x : Nibble) (r f : Byte) : (s.writeResultAndFlag o x r f).dt = s.dt := by cases o <;> rfl
@[simp] theorem State.writeResultAndFlag_st (o : Config.VfWriteOrder) (x : Nibble) (r f : Byte) : (s.writeResultAndFlag o x r f).st = s.st := by cases o <;> rfl
@[simp] theorem State.writeResultAndFlag_disp (o : Config.VfWriteOrder) (x : Nibble) (r f : Byte) : (s.writeResultAndFlag o x r f).disp = s.disp := by cases o <;> rfl
@[simp] theorem State.writeResultAndFlag_keys (o : Config.VfWriteOrder) (x : Nibble) (r f : Byte) : (s.writeResultAndFlag o x r f).keys = s.keys := by cases o <;> rfl
@[simp] theorem State.writeResultAndFlag_wait (o : Config.VfWriteOrder) (x : Nibble) (r f : Byte) : (s.writeResultAndFlag o x r f).wait = s.wait := by cases o <;> rfl
@[simp] theorem State.writeResultAndFlag_pend (o : Config.VfWriteOrder) (x : Nibble) (r f : Byte) : (s.writeResultAndFlag o x r f).pend = s.pend := by cases o <;> rfl
@[simp] theorem State.writeResultAndFlag_acc (o : Config.VfWriteOrder) (x : Nibble) (r f : Byte) : (s.writeResultAndFlag o x r f).acc = s.acc := by cases o <;> rfl
@[simp] theorem State.writeResultAndFlag_tone (o : Config.VfWriteOrder) (x : Nibble) (r f : Byte) : (s.writeResultAndFlag o x r f).tone = s.tone := by cases o <;> rfl
@[simp] theorem State.writeResultAndFlag_loaded (o : Config.VfWriteOrder) (x : Nibble) (r f : Byte) : (s.writeResultAndFlag o x r f).loaded = s.loaded := by cases o <;> rfl
@[simp] theorem State.writeResultAndFlag_fault (o : Config.VfWriteOrder) (x : Nibble) (r f : Byte) : (s.writeResultAndFlag o x r f).fault = s.fault := by cases o <;> rfl
@[simp] theorem State.writeResultAndFlag_draws (o : Config.VfWriteOrder) (x : Nibble) (r f : Byte) : (s.writeResultAndFlag o x r f).draws = s.draws := by cases o <;> rfl
@[simp] theorem State.writeResultAndFlag_inbox (o : Config.VfWriteOrder) (x : Nibble) (r f : Byte) : (s.writeResultAndFlag o x r f).inbox = s.inbox := by cases o <;> rfl
@[simp] theorem State.writeResultAndFlag_hostDelta (o : Config.VfWriteOrder) (x : Nibble) (r f : Byte) : (s.writeResultAndFlag o x r f).hostDelta = s.hostDelta := by cases o <;> rfl
@[simp] theorem State.writeResultAndFlag_out (o : Config.VfWriteOrder) (x : Nibble) (r f : Byte) : (s.writeResultAndFlag o x r f).out = s.out := by cases o <;> rfl

/-! ### toneEdge -/

@[simp] theorem State.toneEdge_mem : (s.toneEdge).mem = s.mem := by unfold State.toneEdge; split <;> [rfl; split <;> rfl]
@[simp] theorem State.toneEdge_v : (s.toneEdge).v = s.v := by unfold State.toneEdge; split <;> [rfl; split <;> rfl]
@[simp] theorem State.toneEdge_i : (s.toneEdge).i = s.i := by unfold State.toneEdge; split <;> [rfl; split <;> rfl]
@[simp] theorem State.toneEdge_pc : (s.toneEdge).pc = s.pc := by unfold State.toneEdge; split <;> [rfl; split <;> rfl]
@[simp] theorem State.toneEdge_stack : (s.toneEdge).stack = s.stack := by unfold State.toneEdge; split <;> [rfl; split <;> rfl]
@[simp] theorem State.toneEdge_sp : (s.toneEdge).sp = s.sp := by unfold State.toneEdge; split <;> [rfl; split <;> rfl]
@[simp] theorem State.toneEdge_dt : (s.toneEdge).dt = s.dt := by unfold State.toneEdge; split <;> [rfl; split <;> rfl]
@[simp] theorem State.toneEdge_st : (s.toneEdge).st = s.st := by unfold State.toneEdge; split <;> [rfl; split <;> rfl]
@[simp] theorem State.toneEdge_disp : (s.toneEdge).disp = s.disp := by unfold State.toneEdge; split <;> [rfl; split <;> rfl]
@[simp] theorem State.toneEdge_keys : (s.toneEdge).keys = s.keys := by unfold State.toneEdge; split <;> [rfl; split <;> rfl]
@[simp] theorem State.toneEdge_wait : (s.toneEdge).wait = s.wait := by unfold State.toneEdge; split <;> [rfl; split <;> rfl]
@[simp] theorem State.toneEdge_pend : (s.toneEdge).pend = s.pend := by unfold State.toneEdge; split <;> [rfl; split <;> rfl]
@[simp] theorem State.toneEdge_acc : (s.toneEdge).acc = s.acc := by unfold State.toneEdge; split <;> [rfl; split <;> rfl]
@[simp] theorem State.toneEdge_loaded : (s.toneEdge).loaded = s.loaded := by unfold State.toneEdge; split <;> [rfl; split <;> rfl]
@[simp] theorem State.toneEdge_fault : (s.toneEdge).fault = s.fault := by unfold State.toneEdge; split <;> [rfl; split <;> rfl]
@[simp] theorem State.toneEdge_draws : (s.toneEdge).draws = s.draws := by unfold State.toneEdge; split <;> [rfl; split <;> rfl]
@[simp] theorem State.toneEdge_inbox : (s.toneEdge).inbox = s.inbox := by unfold State.toneEdge; split <;> [rfl; split <;> rfl]
@[simp] theorem State.toneEdge_hostDelta : (s.toneEdge).hostDelta = s.hostDelta := by unfold State.toneEdge; split <;> [rfl; split <;> rfl]

/-! ### capture -/

@[simp] theorem State.capture_mem (k : Nibble) : (s.capture k).mem = s.mem := by unfold State.capture; split <;> rfl
@[simp] theorem State.capture_v (k : Nibble) : (s.capture k).v = s.v := by unfold State.capture; split <;> rfl
@[simp] theorem State.capture_i (k : Nibble) : (s.capture k).i = s.i := by unfold State.capture; split <;> rfl
@[simp] theorem State.capture_pc (k : Nibble) : (s.capture k).pc = s.pc := by unfold State.capture; split <;> rfl
@[simp] theorem State.capture_stack (k : Nibble) : (s.capture k).stack = s.stack := by unfold State.capture; split <;> rfl
@[simp] theorem State.capture_sp (k : Nibble) : (s.capture k).sp = s.sp := by unfold State.capture; split <;> rfl
@[simp] theorem State.capture_dt (k : Nibble) : (s.capture k).dt = s.dt := by unfold State.capture; split <;> rfl
@[simp] theorem State.capture_st (k : Nibble) : (s.capture k).st = s.st := by unfold State.capture; split <;> rfl
@[simp] theorem State.capture_disp (k : Nibble) : (s.capture k).disp = s.disp := by unfold State.capture; split <;> rfl
@[simp] theorem State.capture_keys (k : Nibble) : (s.capture k).keys = s.keys := by unfold State.capture; split <;> rfl
@[simp] theorem State.capture_acc (k : Nibble) : (s.capture k).acc = s.acc := by unfold State.capture; split <;> rfl
@[simp] theorem State.capture_tone (k : Nibble) : (s.capture k).tone = s.tone := by unfold State.capture; split <;> rfl
@[simp] theorem State.capture_loaded (k : Nibble) : (s.capture k).loaded = s.loaded := by unfold State.capture; split <;> rfl
@[simp] theorem State.capture_fault (k : Nibble) : (s.capture k).fault = s.fault := by unfold State.capture; split <;> rfl
@[simp] theorem State.capture_draws (k : Nibble) : (s.capture k).draws = s.draws := by unfold State.capture; split <;> rfl
@[simp] theorem State.capture_inbox (k : Nibble) : (s.capture k).inbox = s.inbox := by unfold State.capture; split <;> rfl
@[simp] theorem State.capture_hostDelta (k : Nibble) : (s.capture k).hostDelta = s.hostDelta := by unfold State.capture; split <;> rfl
@[simp] theorem State.capture_out (k : Nibble) : (s.capture k).out = s.out := by unfold State.capture; split <;> rfl

/-! ### loadRegs -/

@[simp] theorem State.loadRegs_mem (a n : Nat) : (s.loadRegs a n).mem = s.mem := by induction n with | zero => rfl | succ n ih => simpa [State.loadRegs] using ih
@[simp] theorem State.loadRegs_i (a n : Nat) : (s.loadRegs a n).i = s.i := by induction n with | zero => rfl | succ n ih => simpa [State.loadRegs] using ih
@[simp] theorem State.loadRegs_pc (a n : Nat) : (s.loadRegs a n).pc = s.pc := by induction n with | zero => rfl | succ n ih => simpa [State.loadRegs] using ih
@[simp] theorem State.loadRegs_stack (a n : Nat) : (s.loadRegs a n).stack = s.stack := by induction n with | zero => rfl | succ n ih => simpa [State.loadRegs] using ih
@[simp] theorem State.loadRegs_sp (a n : Nat) : (s.loadRegs a n).sp = s.sp := by induction n with | zero => rfl | succ n ih => simpa [State.loadRegs] using ih
@[simp] theorem State.loadRegs_dt (a n : Nat) : (s.loadRegs a n).dt = s.dt := by induction n with | zero => rfl | succ n ih => simpa [State.loadRegs] using ih
@[simp] theorem State.loadRegs_st (a n : Nat) : (s.loadRegs a n).st = s.st := by induction n with | zero => rfl | succ n ih => simpa [State.loadRegs] using ih
@[simp] theorem State.loadRegs_disp (a n : Nat) : (s.loadRegs a n).disp = s.disp := by induction n with | zero => rfl | succ n ih => simpa [State.loadRegs] using ih
@[simp] theorem State.loadRegs_keys (a n : Nat) : (s.loadRegs a n).keys = s.keys := by induction n with | zero => rfl | succ n ih => simpa [State.loadRegs] using ih
@[simp] theorem State.loadRegs_wait (a n : Nat) : (s.loadRegs a n).wait = s.wait := by induction n with | zero => rfl | succ n ih => simpa [State.loadRegs] using ih
@[simp] theorem State.loadRegs_pend (a n : Nat) : (s.loadRegs a n).pend = s.pend := by induction n with | zero => rfl | succ n ih => simpa [State.loadRegs] using ih
@[simp] theorem State.loadRegs_acc (a n : Nat) : (s.loadRegs a n).acc = s.acc := by induction n with | zero => rfl | succ n ih => simpa [State.loadRegs] using ih
@[simp] theorem State.loadRegs_tone (a n : Nat) : (s.loadRegs a n).tone = s.tone := by induction n with | zero => rfl | succ n ih => simpa [State.loadRegs] using ih
@[simp] theorem State.loadRegs_loaded (a n : Nat) : (s.loadRegs a n).loaded = s.loaded := by induction n with | zero => rfl | succ n ih => simpa [State.loadRegs] using ih
@[simp] theorem State.loadRegs_fault (a n : Nat) : (s.loadRegs a n).fault = s.fault := by induction n with | zero => rfl | succ n ih => simpa [State.loadRegs] using ih
@[simp] theorem State.loadRegs_draws (a n : Nat) : (s.loadRegs a n).draws = s.draws := by induction n with | zero => rfl | succ n ih => simpa [State.loadRegs] using ih
@[simp] theorem State.loadRegs_inbox (a n : Nat) : (s.loadRegs a n).inbox = s.inbox := by induction n with | zero => rfl | succ n ih => simpa [State.loadRegs] using ih
@[simp] theorem State.loadRegs_hostDelta (a n : Nat) : (s.loadRegs a n).hostDelta = s.hostDelta := by induction n with | zero => rfl | succ n ih => simpa [State.loadRegs] using ih
@[simp] theorem State.loadRegs_out (a n : Nat) : (s.loadRegs a n).out = s.out := by induction n with | zero => rfl | succ n ih => simpa [State.loadRegs] using ih

/-! ### Registers -/

theorem State.reg_setReg (r q : Nibble) (b : Byte) : (s.setReg r b).reg q = if q = r then b else s.reg q := by
  simp only [State.reg, State.setReg, Vector.getElem_set, BitVec.toNat_inj, eq_comm]

@[simp] theorem State.reg_setReg_same (r : Nibble) (b : Byte) : (s.setReg r b).reg r = b := by
  simp [State.reg_setReg]

theorem State.reg_setReg_other {r q : Nibble} (h : q ≠ r) (b : Byte) : (s.setReg r b).reg q = s.reg q := by
  simp [State.reg_setReg, h]

/-- Two states with the same register file read the same registers. -/
theorem State.reg_congr {s t : State} (h : t.v = s.v) (q : Nibble) : t.reg q = s.reg q := by
  simp [State.reg, h]

/-- Everything `skipIf` does to PC. -/
theorem State.skipIf_pc (c : Bool) : (s.skipIf c).pc = if c then s.pc + 2#16 else s.pc := by cases c <;> rfl

/-- With the flag last, VF ends as the flag and Vx, unless it is VF, as the result (R121). -/
theorem State.reg_writeFlagLast (x q : Nibble) (r f : Byte) :
    (s.writeResultAndFlag .flagLast x r f).reg q = if q = vf then f else if q = x then r else s.reg q := by
  simp only [State.writeResultAndFlag, State.reg_setReg]

/-- With the result last, Vx ends as the result and VF, unless it is Vx, as the flag (R121). -/
theorem State.reg_writeResultLast (x q : Nibble) (r f : Byte) :
    (s.writeResultAndFlag .resultLast x r f).reg q = if q = x then r else if q = vf then f else s.reg q := by
  simp only [State.writeResultAndFlag, State.reg_setReg]

/-- A register after the block load: the first `n` registers are loaded, the others keep their value (R145). -/
theorem State.reg_loadRegs (a n : Nat) (hn : n ≤ 16) (q : Nibble) :
    (s.loadRegs a n).reg q = if q.toNat < n then Memory.read s.mem (a + q.toNat) else s.reg q := by
  induction n with
  | zero => simp [State.loadRegs]
  | succ n ih =>
    have hq : q = BitVec.ofNat 4 n ↔ q.toNat = n := by
      rw [← BitVec.toNat_inj, BitVec.toNat_ofNat, Nat.mod_eq_of_lt (by omega)]
    rw [State.loadRegs, State.reg_setReg, ih (by omega)]
    by_cases h : q.toNat = n
    · rw [if_pos (hq.mpr h), if_pos (by omega), h]
    · rw [if_neg (fun e => h (hq.mp e))]
      by_cases h' : q.toNat < n
      · rw [if_pos h', if_pos (by omega)]
      · rw [if_neg h', if_neg (by omega)]

/-- V0 to Vx in ascending order, one by one (R144). -/
theorem State.regsUpTo_getElem? (x : Nibble) (k : Nat) :
    (s.regsUpTo x)[k]? = if k < x.toNat + 1 then some (s.reg (BitVec.ofNat 4 k)) else none := by
  have hx := x.isLt
  by_cases h : k < x.toNat + 1
  · have hk : k < 16 := by omega
    simp [State.regsUpTo, State.reg, h, Nat.mod_eq_of_lt hk, hk]
  · simp [State.regsUpTo, h]

@[simp] theorem State.regsUpTo_length (x : Nibble) : (s.regsUpTo x).length = x.toNat + 1 := by
  have hx := x.isLt
  simp [State.regsUpTo]; omega

/-! ### Keys -/

/-- `KEYS[q]` after a key event (R186, R187). -/
theorem State.key_setKey (k q : Nibble) (b : Bool) : (s.setKey k b).key q = if q = k then b else s.key q := by
  simp only [State.key, State.setKey, Vector.getElem_set, BitVec.toNat_inj, eq_comm]

end Sys2Proof.Machine
end

