-- ==== Sys2Proof/Laws/Memory.lean ====
section
/-! SUPPORT. The laws of memory: a read after a write, and that every memory operation keeps the canonical form. -/

namespace Sys2Proof.Machine

/-! ### Read after write (20_memory.md R62) -/

theorem Memory.read_insert (m : Memory) (a : Nat) (b : Byte) (h : ∀ c ∈ m, c.1 ≠ a) (q : Nat) :
    Memory.read (Memory.insert m a b) q = if q = a then b else Memory.read m q := by
  induction m with
  | nil => simp [Memory.insert, Memory.read, eq_comm]
  | cons c rest ih =>
    obtain ⟨k, v⟩ := c
    have hk : k ≠ a := h (k, v) (by simp)
    have ih := ih fun c hc => h c (by simp [hc])
    by_cases hlt : a < k
    · simp [Memory.insert, Memory.read, hlt, eq_comm]
    · simp only [Memory.insert, hlt, if_false, Memory.read, ih]
      by_cases hq : q = a
      · subst hq; simp [hk]
      · simp [hq]

theorem Memory.read_filter (m : Memory) (a q : Nat) :
    Memory.read (m.filter fun c => c.1 != a) q = if q = a then Memory.resetByte a else Memory.read m q := by
  induction m with
  | nil => by_cases h : q = a <;> simp [Memory.read, h]
  | cons c rest ih =>
    obtain ⟨k, v⟩ := c
    by_cases hk : k = a
    · subst hk
      simp only [List.filter, bne_self_eq_false, ih, Memory.read]
      by_cases hq : q = k
      · simp [hq]
      · simp [hq, Ne.symm hq]
    · have : (k != a) = true := by simpa using hk
      simp only [List.filter, this, Memory.read, ih]
      by_cases hq : q = a
      · subst hq; simp [hk]
      · simp [hq]

/-- A read gives the byte last written to the address, and every other byte is untouched. -/
theorem Memory.read_write (m : Memory) (a q : Nat) (b : Byte) :
    Memory.read (Memory.write m a b) q = if q = a then b else Memory.read m q := by
  unfold Memory.write
  by_cases hb : b = Memory.resetByte a
  · simp only [hb, if_true, Memory.read_filter]
  · simp only [hb, if_false]
    rw [Memory.read_insert _ _ _ (by simp), Memory.read_filter]
    by_cases hq : q = a <;> simp [hq]

@[simp] theorem Memory.read_write_same (m : Memory) (a : Nat) (b : Byte) :
    Memory.read (Memory.write m a b) a = b := by simp [Memory.read_write]

theorem Memory.read_write_other (m : Memory) {a q : Nat} (h : q ≠ a) (b : Byte) :
    Memory.read (Memory.write m a b) q = Memory.read m q := by simp [Memory.read_write, h]

/-- After a block write, an address inside the block reads its byte, and every other byte is untouched. -/
theorem Memory.read_writeBytes (m : Memory) (a q : Nat) (bytes : List Byte) :
    Memory.read (Memory.writeBytes m a bytes) q =
      if a ≤ q then (bytes[q - a]?).getD (Memory.read m q) else Memory.read m q := by
  induction bytes generalizing m a with
  | nil => simp [Memory.writeBytes]
  | cons b rest ih =>
    rw [Memory.writeBytes, ih, Memory.read_write]
    by_cases h1 : a + 1 ≤ q
    · have hqa : q ≠ a := by omega
      obtain ⟨d, rfl⟩ := Nat.exists_eq_add_of_le h1
      have e1 : a + 1 + d - (a + 1) = d := by omega
      have e2 : a + 1 + d - a = d + 1 := by omega
      simp [show a ≤ a + 1 + d by omega, hqa, e1, e2]
    · by_cases hqa : q = a
      · subst hqa; simp
      · simp [h1, hqa, show ¬ a ≤ q by omega]

theorem Memory.read_writeBytes_outside (m : Memory) (a q : Nat) (bytes : List Byte)
    (h : q < a ∨ a + bytes.length ≤ q) :
    Memory.read (Memory.writeBytes m a bytes) q = Memory.read m q := by
  rw [Memory.read_writeBytes]
  rcases h with h | h
  · rw [if_neg (by omega)]
  · simp [List.getElem?_eq_none (show bytes.length ≤ q - a by omega)]

theorem Memory.read_writeBytes_inside (m : Memory) (a k : Nat) (bytes : List Byte) (h : k < bytes.length) :
    Memory.read (Memory.writeBytes m a bytes) (a + k) = bytes[k] := by
  rw [Memory.read_writeBytes, if_pos (by omega)]
  simp [show a + k - a = k by omega, h]

/-! ### The canonical form -/

theorem Memory.rising_iff_pairwise (m : Memory) :
    Memory.rising m = true ↔ m.Pairwise fun c d => c.1 < d.1 := by
  induction m with
  | nil => simp [Memory.rising]
  | cons c rest ih =>
    cases rest with
    | nil => simp [Memory.rising]
    | cons d rest =>
      rw [Memory.rising, Bool.and_eq_true, ih, decide_eq_true_iff]
      constructor
      · rintro ⟨hcd, hp⟩
        refine List.pairwise_cons.mpr ⟨fun e he => ?_, hp⟩
        rcases List.mem_cons.mp he with rfl | he
        · exact hcd
        · exact hcd.trans ((List.pairwise_cons.mp hp).1 e he)
      · intro h
        have h := List.pairwise_cons.mp h
        exact ⟨h.1 d (by simp), h.2⟩

/-- The canonical form, entry by entry. -/
theorem Memory.wf_iff (m : Memory) :
    Memory.wf m = true ↔ m.Pairwise (fun c d => c.1 < d.1) ∧
      ∀ c ∈ m, c.1 < Config.memSize ∧ c.2 ≠ Memory.resetByte c.1 := by
  simp [Memory.wf, Memory.rising_iff_pairwise, List.all_eq_true]

theorem Memory.mem_insert (m : Memory) (a : Nat) (b : Byte) (c : Host.Cell) :
    c ∈ Memory.insert m a b ↔ c = (a, b) ∨ c ∈ m := by
  induction m with
  | nil => simp [Memory.insert]
  | cons d rest ih =>
    by_cases h : a < d.1
    · simp [Memory.insert, h]
    · simp only [Memory.insert, h, if_false, List.mem_cons, ih]; tauto

theorem Memory.pairwise_insert (m : Memory) (a : Nat) (b : Byte) (hm : m.Pairwise fun c d => c.1 < d.1)
    (h : ∀ c ∈ m, c.1 ≠ a) : (Memory.insert m a b).Pairwise fun c d => c.1 < d.1 := by
  induction m with
  | nil => simp [Memory.insert]
  | cons d rest ih =>
    have hm' := List.pairwise_cons.mp hm
    by_cases hlt : a < d.1
    · rw [Memory.insert, if_pos hlt]
      refine List.pairwise_cons.mpr ⟨fun e he => ?_, hm⟩
      rcases List.mem_cons.mp he with rfl | he
      · exact hlt
      · exact Nat.lt_trans hlt (hm'.1 e he)
    · rw [Memory.insert, if_neg hlt]
      refine List.pairwise_cons.mpr ⟨fun e he => ?_, ih hm'.2 fun c hc => h c (by simp [hc])⟩
      rcases (Memory.mem_insert _ _ _ _).mp he with rfl | he
      · have := h d (by simp)
        show d.1 < a
        omega
      · exact hm'.1 e he

/-- A write inside memory keeps the canonical form. -/
theorem Memory.wf_write (m : Memory) (a : Nat) (b : Byte) (hm : Memory.wf m = true) (ha : a < Config.memSize) :
    Memory.wf (Memory.write m a b) = true := by
  rw [Memory.wf_iff] at hm ⊢
  have hf : (m.filter fun c => c.1 != a).Pairwise fun c d => c.1 < d.1 := hm.1.sublist List.filter_sublist
  unfold Memory.write
  by_cases hb : b = Memory.resetByte a
  · simp only [hb, if_true]
    exact ⟨hf, fun c hc => hm.2 c (List.mem_of_mem_filter hc)⟩
  · simp only [hb, if_false]
    refine ⟨Memory.pairwise_insert _ _ _ hf (by simp), fun c hc => ?_⟩
    rcases (Memory.mem_insert _ _ _ _).mp hc with rfl | hc
    · exact ⟨ha, hb⟩
    · exact hm.2 c (List.mem_of_mem_filter hc)

/-- A block write inside memory keeps the canonical form. -/
theorem Memory.wf_writeBytes (m : Memory) (a : Nat) (bytes : List Byte) (hm : Memory.wf m = true)
    (ha : a + bytes.length ≤ Config.memSize) : Memory.wf (Memory.writeBytes m a bytes) = true := by
  induction bytes generalizing m a with
  | nil => exact hm
  | cons b rest ih =>
    have hl : (b :: rest).length = rest.length + 1 := rfl
    exact ih _ _ (Memory.wf_write _ _ _ hm (by omega)) (by omega)

/-- Reset memory is in canonical form. -/
theorem Memory.wf_reset : Memory.wf State.reset.mem = true := rfl

/-! ### Bound checks (R58, R59, R60) -/

theorem dataRangeOk_iff (a n : Nat) : dataRangeOk a n = true ↔ 0x200 ≤ a ∧ a + n < 0x1000 := by
  simp [dataRangeOk]

theorem spriteRangeOk_iff (a n : Nat) : spriteRangeOk a n = true ↔ a + n ≤ 0x1000 := by
  simp [spriteRangeOk]

theorem targetOk_iff (t : Nat) : targetOk t = true ↔ 0x200 ≤ t ∧ t < 0x1000 := by
  simp [targetOk]

@[simp] theorem bcdDigits_length (b : Byte) : (bcdDigits b).length = 3 := rfl

end Sys2Proof.Machine
end

