-- ==== Sys2Proof/Laws/Display.lean ====
section
/-! SUPPORT. The display: one pixel after a toggle, and what the bits and rows of a sprite do to every pixel and to the
collision flag (44_display_keys_timers.md R161, R162). -/

namespace Sys2Proof.Machine

open Sys2Proof.Safety

@[simp] theorem Display.get_clear (row : Fin 32) (col : Fin 64) : Display.clear.get row col = false := by
  simp [Display.get, Display.clear]

/-- A toggle flips its pixel and no other. -/
theorem Display.get_toggle (d : Display) (r row : Fin 32) (c col : Fin 64) :
    (d.toggle r c).get row col = if row = r ∧ col = c then !d.get row col else d.get row col := by
  by_cases hr : row = r
  · subst hr
    by_cases hc : col = c
    · subst hc; simp [Display.get, Display.toggle]
    · have : c.val ≠ col.val := fun h => hc (Fin.ext h.symm)
      simp [Display.get, Display.toggle, hc, this]
  · have : r.val ≠ row.val := fun h => hr (Fin.ext h.symm)
    simp [Display.get, Display.toggle, hr, this]

/-- Two displays that agree pixel by pixel are equal. -/
theorem Display.ext_get (d e : Display) (h : ∀ row col, d.get row col = e.get row col) : d = e := by
  apply Vector.ext
  intro i hi
  apply Vector.ext
  intro j hj
  exact h ⟨i, hi⟩ ⟨j, hj⟩

/-- The first `k` bits of a sprite row cover the pixel. -/
def BitsCover (b : Byte) (row : Fin 32) (cx : Byte) (k : Nat) (row' : Fin 32) (col' : Fin 64) : Prop :=
  row' = row ∧ ∃ j < k, col' = spriteCol cx j ∧ b.getLsbD (7 - j) = true

/-- Different bits of one sprite row land on different columns (R161: 8 < 64). -/
theorem spriteCol_inj (cx : Byte) {i j : Nat} (hi : i < 8) (hj : j < 8) (h : spriteCol cx i = spriteCol cx j) :
    i = j := by
  have h := congrArg Fin.val h
  simp only [spriteCol] at h
  have := cx.isLt
  omega

/-- Different rows of one sprite land on different display rows (R161: 15 < 32). -/
theorem spriteRow_inj (cy : Byte) {i j : Nat} (hi : i < 16) (hj : j < 16) (h : spriteRow cy i = spriteRow cy j) :
    i = j := by
  have h := congrArg Fin.val h
  simp only [spriteRow] at h
  have := cy.isLt
  omega

open Classical in
/-- The first `k` bits of a row flip exactly the covered pixels. -/
theorem drawBits_get (b : Byte) (row : Fin 32) (cx : Byte) (c : Canvas) (k : Nat) (hk : k ≤ 8)
    (row' : Fin 32) (col' : Fin 64) :
    (drawBits b row cx c k).1.get row' col' =
      if BitsCover b row cx k row' col' then !c.1.get row' col' else c.1.get row' col' := by
  induction k with
  | zero => simp [drawBits, BitsCover]
  | succ k ih =>
    have ih := ih (by omega)
    have hstep : BitsCover b row cx (k + 1) row' col' ↔
        BitsCover b row cx k row' col' ∨ (row' = row ∧ col' = spriteCol cx k ∧ b.getLsbD (7 - k) = true) := by
      constructor
      · rintro ⟨hr, j, hj, h⟩
        rcases Nat.lt_succ_iff_lt_or_eq.mp hj with hj | rfl
        · exact .inl ⟨hr, j, hj, h⟩
        · exact .inr ⟨hr, h⟩
      · rintro (⟨hr, j, hj, h⟩ | ⟨hr, h⟩)
        · exact ⟨hr, j, by omega, h⟩
        · exact ⟨hr, k, by omega, h⟩
    rw [drawBits]
    by_cases hb : b.getLsbD (7 - k) = true
    · rw [if_pos hb, drawPixel, Display.get_toggle, ih]
      by_cases hhit : row' = row ∧ col' = spriteCol cx k
      · have hnot : ¬ BitsCover b row cx k row' col' := by
          rintro ⟨-, j, hj, hc, -⟩
          have := spriteCol_inj cx (by omega) (by omega) (hc.symm.trans hhit.2)
          omega
        rw [if_pos hhit, if_neg hnot, if_pos (hstep.mpr (.inr ⟨hhit.1, hhit.2, hb⟩))]
      · rw [if_neg hhit]
        have : BitsCover b row cx (k + 1) row' col' ↔ BitsCover b row cx k row' col' :=
          hstep.trans ⟨fun h => h.resolve_right fun ⟨a, b, _⟩ => hhit ⟨a, b⟩, .inl⟩
        simp only [this]
    · rw [if_neg hb, ih]
      have : BitsCover b row cx (k + 1) row' col' ↔ BitsCover b row cx k row' col' :=
        hstep.trans ⟨fun h => h.resolve_right fun ⟨_, _, h⟩ => hb h, .inl⟩
      simp only [this]

/-- The first `k` bits collide if some set bit meets a lit pixel. -/
theorem drawBits_hit (b : Byte) (row : Fin 32) (cx : Byte) (c : Canvas) (k : Nat) (hk : k ≤ 8) :
    (drawBits b row cx c k).2 = true ↔
      c.2 = true ∨ ∃ j < k, b.getLsbD (7 - j) = true ∧ c.1.get row (spriteCol cx j) = true := by
  induction k with
  | zero => simp [drawBits]
  | succ k ih =>
    have ih := ih (by omega)
    have hget : (drawBits b row cx c k).1.get row (spriteCol cx k) = c.1.get row (spriteCol cx k) := by
      classical
      rw [drawBits_get _ _ _ _ _ (by omega), if_neg]
      rintro ⟨-, j, hj, hc, -⟩
      have := spriteCol_inj cx (by omega) (by omega) hc
      omega
    rw [drawBits]
    by_cases hb : b.getLsbD (7 - k) = true
    · rw [if_pos hb, drawPixel]
      simp only [Bool.or_eq_true, ih, hget]
      constructor
      · rintro ((h | ⟨j, hj, h⟩) | h)
        · exact .inl h
        · exact .inr ⟨j, by omega, h⟩
        · exact .inr ⟨k, by omega, hb, h⟩
      · rintro (h | ⟨j, hj, h⟩)
        · exact .inl (.inl h)
        · rcases Nat.lt_succ_iff_lt_or_eq.mp hj with hj | rfl
          · exact .inl (.inr ⟨j, hj, h⟩)
          · exact .inr h.2
    · rw [if_neg hb, ih]
      constructor
      · rintro (h | ⟨j, hj, h⟩)
        · exact .inl h
        · exact .inr ⟨j, by omega, h⟩
      · rintro (h | ⟨j, hj, h⟩)
        · exact .inl h
        · rcases Nat.lt_succ_iff_lt_or_eq.mp hj with hj | rfl
          · exact .inr ⟨j, hj, h⟩
          · exact absurd h.1 hb

/-- A sprite covers a pixel exactly if one of its rows does. -/
theorem spriteCovers_iff (m : Memory) (a : Nat) (cx cy : Byte) (n : Nat) (row : Fin 32) (col : Fin 64) :
    SpriteCovers m a cx cy n row col ↔
      ∃ r < n, BitsCover (Memory.read m (a + r)) (spriteRow cy r) cx 8 row col := by
  constructor
  · rintro ⟨r, hr, j, hj, h1, h2, h3⟩
    exact ⟨r, hr, Fin.ext h1, j, hj, Fin.ext h2, h3⟩
  · rintro ⟨r, hr, h1, j, hj, h2, h3⟩
    exact ⟨r, hr, j, hj, congrArg Fin.val h1, congrArg Fin.val h2, h3⟩

open Classical in
/-- A sprite of `n` rows flips exactly the pixels it covers. -/
theorem drawRows_get (m : Memory) (a : Nat) (cx cy : Byte) (c : Canvas) (n : Nat) (hn : n ≤ 16)
    (row : Fin 32) (col : Fin 64) :
    (drawRows m a cx cy c n).1.get row col =
      if SpriteCovers m a cx cy n row col then !c.1.get row col else c.1.get row col := by
  induction n with
  | zero => simp [drawRows, SpriteCovers]
  | succ n ih =>
    have ih := ih (by omega)
    have hstep : SpriteCovers m a cx cy (n + 1) row col ↔ SpriteCovers m a cx cy n row col ∨
        BitsCover (Memory.read m (a + n)) (spriteRow cy n) cx 8 row col := by
      simp only [spriteCovers_iff]
      constructor
      · rintro ⟨r, hr, h⟩
        rcases Nat.lt_succ_iff_lt_or_eq.mp hr with hr | rfl
        · exact .inl ⟨r, hr, h⟩
        · exact .inr h
      · rintro (⟨r, hr, h⟩ | h)
        · exact ⟨r, by omega, h⟩
        · exact ⟨n, by omega, h⟩
    rw [drawRows, drawBits_get _ _ _ _ _ (Nat.le_refl 8), ih]
    by_cases h2 : BitsCover (Memory.read m (a + n)) (spriteRow cy n) cx 8 row col
    · have h1 : ¬ SpriteCovers m a cx cy n row col := by
        rw [spriteCovers_iff]
        rintro ⟨r, hr, hc⟩
        have := spriteRow_inj cy (by omega) (by omega) (hc.1.symm.trans h2.1)
        omega
      rw [if_pos h2, if_neg h1, if_pos (hstep.mpr (.inr h2))]
    · have : SpriteCovers m a cx cy (n + 1) row col ↔ SpriteCovers m a cx cy n row col :=
        hstep.trans ⟨fun h => h.resolve_right h2, .inl⟩
      simp only [if_neg h2, this]

/-- A sprite collides if it covers a pixel that was lit. -/
theorem drawRows_hit (m : Memory) (a : Nat) (cx cy : Byte) (c : Canvas) (n : Nat) (hn : n ≤ 16) :
    (drawRows m a cx cy c n).2 = true ↔
      c.2 = true ∨ ∃ row col, SpriteCovers m a cx cy n row col ∧ c.1.get row col = true := by
  induction n with
  | zero => simp [drawRows, SpriteCovers]
  | succ n ih =>
    have ih := ih (by omega)
    rw [drawRows, drawBits_hit _ _ _ _ _ (Nat.le_refl 8), ih]
    have hget : ∀ col, (drawRows m a cx cy c n).1.get (spriteRow cy n) col = c.1.get (spriteRow cy n) col := by
      classical
      intro col
      rw [drawRows_get _ _ _ _ _ _ (by omega), if_neg]
      rw [spriteCovers_iff]
      rintro ⟨r, hr, hc⟩
      have := spriteRow_inj cy (by omega) (by omega) hc.1
      omega
    simp only [hget, spriteCovers_iff]
    constructor
    · rintro ((h | ⟨row, col, ⟨r, hr, hc⟩, h⟩) | ⟨j, hj, hb, h⟩)
      · exact .inl h
      · exact .inr ⟨row, col, ⟨r, by omega, hc⟩, h⟩
      · exact .inr ⟨_, _, ⟨n, by omega, rfl, j, hj, rfl, hb⟩, h⟩
    · rintro (h | ⟨row, col, ⟨r, hr, hc⟩, h⟩)
      · exact .inl (.inl h)
      · rcases Nat.lt_succ_iff_lt_or_eq.mp hr with hr | rfl
        · exact .inl (.inr ⟨row, col, ⟨r, hr, hc⟩, h⟩)
        · obtain ⟨rfl, j, hj, rfl, hb⟩ := hc
          exact .inr ⟨j, hj, hb, h⟩

end Sys2Proof.Machine
end

