-- ==== Sys2Proof/Laws/Flags.lean ====
section
/-! SUPPORT. The arithmetic results and flags as numbers (42_alu.md R124, R128 to R132), and what a flag instruction
leaves (R121). -/

namespace Sys2Proof.Machine

@[simp] theorem addWrap_toNat (a b : Byte) : (addWrap a b).toNat = (a.toNat + b.toNat) % 256 := by
  simp [addWrap]

theorem subWrap_toNat (a b : Byte) : ((subWrap a b).toNat : ℤ) = ((a.toNat : ℤ) - b.toNat) % 256 := by
  rw [subWrap, BitVec.toNat_ofInt, Int.toNat_of_nonneg (Int.emod_nonneg _ (by norm_num))]
  norm_num

@[simp] theorem boolByte_toNat (c : Bool) : (boolByte c).toNat = if c then 1 else 0 := by cases c <;> rfl

theorem shrResult_toNat (a : Byte) : (shrResult a).toNat = a.toNat / 2 := by
  simp [shrResult, Nat.shiftRight_eq_div_pow]

theorem shrFlag_toNat (a : Byte) : (shrFlag a).toNat = a.toNat % 2 := by
  have h : a.getLsbD 0 = decide (a.toNat % 2 = 1) := by
    simp [BitVec.getLsbD, Nat.testBit_zero]
  rw [shrFlag, boolByte_toNat, h]
  by_cases h : a.toNat % 2 = 1 <;> simp [h]; omega

theorem shlResult_toNat (a : Byte) : (shlResult a).toNat = a.toNat * 2 % 256 := by
  simp [shlResult, Nat.shiftLeft_eq]

theorem shlFlag_toNat (a : Byte) : (shlFlag a).toNat = a.toNat / 128 := by
  have h : a.getLsbD 7 = decide (128 ≤ a.toNat) := by
    have := BitVec.msb_eq_decide a
    simpa [BitVec.msb, BitVec.getMsbD] using this
  have := a.isLt
  rw [shlFlag, boolByte_toNat, h]
  by_cases h : 128 ≤ a.toNat <;> simp [h] <;> omega

end Sys2Proof.Machine
end

