-- ==== Sys2Proof/Laws/Timers.lean ====
section
/-! SUPPORT. The time arithmetic is the arithmetic of the rationals (45_cycle_orchestrator.md R181). -/

namespace Sys2Proof.Machine

theorem timerPeriod_eq : timerPeriod = 1 / 60 := by
  simp [timerPeriod, Rat.mkRat_eq_div]

theorem timeAdd_eq (a b : Rat) : timeAdd a b = a + b := (Rat.add_def' a b).symm

theorem rat_num_div_den (a : Rat) : (a.num : ℚ) / (a.den : ℚ) = a := Rat.num_div_den a

/-- `wholePeriods` is the floor of the quotient. -/
theorem wholePeriods_eq (t p : Rat) (hp : 0 < p) : wholePeriods t p = ⌊t / p⌋₊ := by
  have hn : 0 < p.num := Rat.num_pos.mpr hp
  have h : t / p = ((t.num * p.den : ℤ) : ℚ) / ((t.den * p.num : ℤ) : ℚ) := by
    conv_lhs => rw [← Rat.num_div_den t, ← Rat.num_div_den p]
    push_cast
    rw [div_div_div_eq]
  have hf : ⌊t / p⌋ = (t.num * p.den) / (t.den * p.num) := by
    rw [h]
    obtain ⟨d, hd⟩ : ∃ d : ℕ, (t.den * p.num : ℤ) = d := Int.eq_ofNat_of_zero_le (by positivity)
    rw [hd]
    exact_mod_cast Rat.floor_intCast_div_natCast (t.num * p.den) d
  rw [← Int.floor_toNat, hf, wholePeriods]

/-- `timeRest` is what is left after `k` periods. -/
theorem timeRest_eq (t p : Rat) (k : Nat) : timeRest t p k = t - k * p := by
  have ht : (t.den : ℚ) ≠ 0 := by exact_mod_cast t.den_nz
  have hp : (p.den : ℚ) ≠ 0 := by exact_mod_cast p.den_nz
  rw [timeRest, Rat.mkRat_eq_div]
  conv_rhs => rw [← Rat.num_div_den t, ← Rat.num_div_den p]
  push_cast
  field_simp

/-- How many ticks a cycle makes. -/
theorem State.ticksDue_eq (s : State) (delta : Rat) : s.ticksDue delta = ⌊(s.acc + delta) * 60⌋₊ := by
  rw [State.ticksDue, wholePeriods_eq _ _ (by rw [timerPeriod_eq]; norm_num), timeAdd_eq, timerPeriod_eq]
  congr 1; ring

/-- ACC after the ticks. -/
theorem State.tickTimers_acc_eq (s : State) (delta : Rat) :
    (s.tickTimers delta).acc = s.acc + delta - s.ticksDue delta / 60 := by
  rw [State.tickTimers_acc, timeRest_eq, timeAdd_eq, timerPeriod_eq]; ring

/-- ACC stays nonnegative and below a period. -/
theorem State.tickTimers_acc_range (s : State) (delta : Rat) (h : 0 ≤ s.acc + delta) :
    0 ≤ (s.tickTimers delta).acc ∧ (s.tickTimers delta).acc < 1 / 60 := by
  rw [State.tickTimers_acc_eq, State.ticksDue_eq]
  have h0 : 0 ≤ (s.acc + delta) * 60 := by linarith
  have h1 := Nat.floor_le h0
  have h2 := Nat.lt_floor_add_one ((s.acc + delta) * 60)
  constructor <;> linarith

/-- A timer after `k` ticks, as a number. -/
@[simp] theorem ticked_toNat (b : Byte) (k : Nat) : (ticked b k).toNat = b.toNat - k := by
  have := b.isLt
  rw [ticked, BitVec.toNat_ofNat, Nat.mod_eq_of_lt (by omega)]

/-- The executeCycle test for a negative delta is the test on rationals. -/
theorem num_neg_iff (q : Rat) : q.num < 0 ↔ q < 0 := Rat.num_neg

end Sys2Proof.Machine
end

