-- ==== Sys2Proof/Laws/Exec.lean ====
section
/-! SUPPORT. One lemma per shared operation: everything it can answer. -/

namespace Sys2Proof.Machine

open Sys2Proof.Safety

/-! ### Frames -/

theorem part_same_refl (p : Part) (s : State) : p.same s s := by
  cases p <;> simp [Part.same]

theorem unchangedBut_refl (l : List Part) (s : State) : UnchangedBut l s s := fun p _ => part_same_refl p s

theorem part_same_trans {p : Part} {s t u : State} (h : p.same s t) (h' : p.same t u) : p.same s u := by
  cases p <;> simp_all [Part.same]

theorem unchangedBut_trans {l : List Part} {s t u : State} (h : UnchangedBut l s t) (h' : UnchangedBut l t u) :
    UnchangedBut l s u := fun p hp => part_same_trans (h p hp) (h' p hp)

theorem unchangedBut_mono {l l' : List Part} {s t : State} (h : UnchangedBut l s t) (hl : l ⊆ l') :
    UnchangedBut l' s t := fun p hp => h p fun hm => hp (hl hm)

theorem unchangedBut_setReg (s : State) (r : Nibble) (b : Byte) : UnchangedBut [.regs] s (s.setReg r b) := by
  intro p hp; cases p <;> simp_all [Part.same]

theorem unchangedBut_writeResultAndFlag (s : State) (o : Config.VfWriteOrder) (x : Nibble) (r f : Byte) :
    UnchangedBut [.regs] s (s.writeResultAndFlag o x r f) := by
  intro p hp; cases p <;> simp_all [Part.same]

theorem unchangedBut_jump (s : State) (t : Nat) : UnchangedBut [.pc] s (s.jump t) := by
  intro p hp; cases p <;> simp_all [Part.same, State.reg]

theorem unchangedBut_skipIf (s : State) (c : Bool) : UnchangedBut [.pc] s (s.skipIf c) := by
  intro p hp; cases p <;> simp_all [Part.same, State.reg]

/-! ### Raising (R183, R203) -/

theorem unchangedBut_raised (s : State) (e : Error) : UnchangedBut [.fault, .outputs] s (s.raised e) := by
  intro p hp; cases p <;> simp_all [Part.same, State.reg]

/-- `raise` raises. -/
theorem raises_raise (e : Error) (s : State) : Raises e s (raise e s) :=
  ⟨s.raised e, rfl, rfl, rfl, unchangedBut_raised s e⟩

theorem raise_next {e : Error} {s t : State} (h : raise e s = .next t) : t = s.raised e := by
  cases h; rfl

/-! ### The stack (R101, R104) -/

/-- Everything `pop` can answer. -/
theorem pop_cases (s : State) :
    (s.sp = 0#8 ∧ s.pop = raise .emptyCallStack s) ∨
    (∃ h : s.sp.toNat - 1 < 16, s.sp ≠ 0#8 ∧
      s.pop = .next { s with sp := s.sp - 1#8, pc := s.stack[s.sp.toNat - 1] }) ∨
    (16 < s.sp.toNat ∧ s.pop = .fault (.noStackEntry (s.sp.toNat - 1))) := by
  unfold State.pop
  by_cases h0 : s.sp = 0#8
  · exact .inl ⟨h0, if_pos h0⟩
  · by_cases h : s.sp.toNat - 1 < 16
    · exact .inr (.inl ⟨h, h0, by rw [if_neg h0, dif_pos h]⟩)
    · exact .inr (.inr ⟨by omega, by rw [if_neg h0, dif_neg h]⟩)

/-- Everything `pushJump` can answer. -/
theorem pushJump_cases (s : State) (t : Nat) :
    (∃ h : s.sp.toNat < 16,
      s.pushJump t = .next { s with stack := s.stack.set s.sp.toNat s.pc h, sp := s.sp + 1#8, pc := BitVec.ofNat 16 t }) ∨
    (16 ≤ s.sp.toNat ∧ s.pushJump t = raise .stackOverflow s) := by
  unfold State.pushJump
  by_cases h : s.sp.toNat + 1 ≤ Config.stackDepth
  · refine .inl ⟨by simpa [Config.stackDepth] using h, by rw [dif_pos h]⟩
  · refine .inr ⟨?_, by rw [dif_neg h]⟩
    simp only [Config.stackDepth] at h; omega

/-! ### The instructions that check before they act -/

theorem execJp_cases (nnn : Addr12) (s : State) :
    (targetOk (addrOf nnn) = true ∧ execJp nnn s = .next (s.jump (addrOf nnn))) ∨
    (targetOk (addrOf nnn) = false ∧ execJp nnn s = raise (.invalidAddress (addrOf nnn)) s) := by
  unfold execJp; cases targetOk (addrOf nnn) <;> simp

theorem execJpV0_cases (nnn : Addr12) (s : State) :
    (targetOk (targetV0 nnn s) = true ∧ execJpV0 nnn s = .next (s.jump (targetV0 nnn s))) ∨
    (targetOk (targetV0 nnn s) = false ∧ execJpV0 nnn s = raise (.invalidAddress (targetV0 nnn s)) s) := by
  unfold execJpV0; cases targetOk (targetV0 nnn s) <;> simp

theorem execCall_cases (nnn : Addr12) (s : State) :
    (targetOk (addrOf nnn) = true ∧ execCall nnn s = s.pushJump (addrOf nnn)) ∨
    (targetOk (addrOf nnn) = false ∧ execCall nnn s = raise (.invalidAddress (addrOf nnn)) s) := by
  unfold execCall; cases targetOk (addrOf nnn) <;> simp

theorem execLdF_cases (x : Nibble) (s : State) :
    ((s.reg x).toNat ≤ 15 ∧ execLdF x s = .next { s with i := glyphAddr (s.reg x) }) ∨
    (15 < (s.reg x).toNat ∧ execLdF x s = raise (.invalidDigit (s.reg x)) s) := by
  unfold execLdF
  by_cases h : (s.reg x).toNat > 15
  · exact .inr ⟨h, if_pos h⟩
  · exact .inl ⟨by omega, if_neg h⟩

theorem execLdB_cases (x : Nibble) (s : State) :
    (dataRangeOk s.i.toNat 3 = true ∧
      execLdB x s = .next { s with mem := Memory.writeBytes s.mem s.i.toNat (bcdDigits (s.reg x)) }) ∨
    (dataRangeOk s.i.toNat 3 = false ∧ execLdB x s = raise (.memoryAccess s.i 3) s) := by
  unfold execLdB; cases dataRangeOk s.i.toNat 3 <;> simp

theorem execLdStore_cases (x : Nibble) (s : State) :
    (dataRangeOk s.i.toNat (blockLen x) = true ∧ execLdStore x s =
      .next ({ s with mem := Memory.writeBytes s.mem s.i.toNat (s.regsUpTo x) }.advanceI x)) ∨
    (dataRangeOk s.i.toNat (blockLen x) = false ∧ execLdStore x s = raise (.memoryAccess s.i (blockLen x)) s) := by
  unfold execLdStore; cases dataRangeOk s.i.toNat (blockLen x) <;> simp

theorem execLdLoad_cases (x : Nibble) (s : State) :
    (dataRangeOk s.i.toNat (blockLen x) = true ∧
      execLdLoad x s = .next ((s.loadRegs s.i.toNat (blockLen x)).advanceI x)) ∨
    (dataRangeOk s.i.toNat (blockLen x) = false ∧ execLdLoad x s = raise (.memoryAccess s.i (blockLen x)) s) := by
  unfold execLdLoad; cases dataRangeOk s.i.toNat (blockLen x) <;> simp

theorem execDrw_cases (x y n : Nibble) (s : State) :
    (spriteRangeOk s.i.toNat n.toNat = true ∧ execDrw x y n s =
      .next ({ s with disp := (s.drawn x y n).1 }.setReg vf (boolByte (s.drawn x y n).2))) ∨
    (spriteRangeOk s.i.toNat n.toNat = false ∧ execDrw x y n s = raise (.memoryAccess s.i n.toNat) s) := by
  unfold execDrw; cases spriteRangeOk s.i.toNat n.toNat <;> simp

theorem skipOnKey_cases (want : Bool) (x : Nibble) (s : State) :
    ((s.reg x).toNat ≤ 15 ∧
      skipOnKey want x s = .next (s.skipIf (s.key ((s.reg x).setWidth 4) == want))) ∨
    (15 < (s.reg x).toNat ∧ skipOnKey want x s = raise (.invalidKey (s.reg x)) s) := by
  unfold skipOnKey
  by_cases h : (s.reg x).toNat > 0xF
  · exact .inr ⟨h, if_pos h⟩
  · exact .inl ⟨by omega, if_neg h⟩

theorem execLdVxK_cases (x : Nibble) (s : State) :
    (∃ k, s.pend = some k ∧ execLdVxK x s = .next { s.setReg x (k.setWidth 8) with pend := none }) ∨
    (s.pend = none ∧ execLdVxK x s = .next { s.rewind with wait := true }) := by
  unfold execLdVxK; cases s.pend <;> simp

/-! ### The cycle -/

/-- A cycle that answers a next state met its preconditions (R189) and is its body with the tone check, or, where the
body raised, without it (R183, R185). -/
theorem executeCycle_next {delta : Rat} {s t : State} (h : executeCycle delta s = .next t) :
    s.loaded = true ∧ s.fault = none ∧ 0 ≤ delta ∧
      ∃ u, (s.tickTimers delta).cycleBody = .next u ∧ t = if u.fault = none then u.toneEdge else u := by
  unfold executeCycle at h
  split at h
  · cases h
  · split at h
    · cases h
    · split at h
      · cases h
      · rename_i h1 h2 h3
        refine ⟨by simpa using h1, by simpa using h2, ?_, ?_⟩
        · rw [num_neg_iff] at h3; exact not_lt.mp h3
        · revert h
          cases (s.tickTimers delta).cycleBody with
          | next u => intro h; cases h; exact ⟨u, rfl, rfl⟩
          | fault r => intro h; cases h
          | refused r => intro h; cases h

/-- What a cycle is when the host keeps its contract (R180). -/
theorem executeCycle_eq {delta : Rat} {s : State} (hl : s.loaded = true) (hf : s.fault = none) (hd : 0 ≤ delta) :
    executeCycle delta s = endCycle (s.tickTimers delta).cycleBody := by
  have : ¬ delta.num < 0 := by rw [num_neg_iff]; exact not_lt.mpr hd
  simp [executeCycle, hl, hf, this]

/-- Everything one fetch, decode and execute can be (R180, R205). -/
theorem runOne_cases (s : State) :
    (0xFFF ≤ s.pc.toNat ∧ s.runOne = raise (.memoryAccess s.pc 2) s) ∨
    (s.pc.toNat < 0xFFF ∧ ∃ w, s.fetchWord = some w ∧
      ((∃ i, decode w = .ok i ∧ s.runOne = exec i s.advance) ∨
       (∃ r, decode w = .error r ∧
          s.runOne = raise (.decodeError w s.pc s.advance.snapshot) s.advance))) := by
  unfold State.runOne
  by_cases h : s.pc.toNat + 1 > 0xFFF
  · have hf : s.fetchWord = none := if_pos h
    exact .inl ⟨by omega, by rw [hf]⟩
  · have hf : s.fetchWord =
        some (wordOfBytes (Memory.read s.mem s.pc.toNat) (Memory.read s.mem (s.pc.toNat + 1))) := if_neg h
    refine .inr ⟨by omega, _, hf, ?_⟩
    rw [hf]
    cases hd : decode (wordOfBytes (Memory.read s.mem s.pc.toNat) (Memory.read s.mem (s.pc.toNat + 1))) with
    | ok i => exact .inl ⟨i, rfl, by simp only [hd]⟩
    | error r => exact .inr ⟨r, rfl, by simp only [hd]⟩

/-- Everything the tone check does (R185). -/
theorem toneEdge_cases (s : State) :
    (s.st ≠ 0#8 ∧ s.tone = false ∧ s.toneEdge = { s.emit .startTone with tone := true }) ∨
    (s.st = 0#8 ∧ s.tone = true ∧ s.toneEdge = { s.emit .stopTone with tone := false }) ∨
    ((s.tone = true ↔ s.st ≠ 0#8) ∧ s.toneEdge = s) := by
  unfold State.toneEdge
  by_cases h0 : s.st = 0#8 <;> cases s.tone <;> simp [h0]

/-- The step is the host's next operation. -/
theorem step_nil {s : State} (h : s.inbox = []) : step s = executeCycle s.hostDelta s := by
  simp [step, hostStep, State.nextOp, h, perform]

theorem step_cons {s : State} {op : HostOp} {rest : List HostOp} (h : s.inbox = op :: rest) :
    step s = perform op { s with inbox := rest } := by
  simp [step, hostStep, State.nextOp, h]

end Sys2Proof.Machine
end

