-- ==== Sys2Proof/Laws/Cycle.lean ====
section
/-! SUPPORT. What every instruction has in common when it answers a next state (it raised, or it left the host's side,
KEYS, ACC, TONE, LOADED and FAULT), and the parts of a cycle (45_cycle_orchestrator.md R180). -/

namespace Sys2Proof.Machine

open Sys2Proof.Safety

/-! ### Every instruction -/

/-- The fields no instruction writes but by raising an error (R30, R33, R35). -/
structure Quiet (s t : State) : Prop where
  fault : t.fault = s.fault
  out : t.out = s.out
  keys : t.keys = s.keys
  acc : t.acc = s.acc
  tone : t.tone = s.tone
  loaded : t.loaded = s.loaded
  inbox : t.inbox = s.inbox
  hostDelta : t.hostDelta = s.hostDelta

theorem Quiet.refl (s : State) : Quiet s s := ⟨rfl, rfl, rfl, rfl, rfl, rfl, rfl, rfl⟩

/-- Everything an instruction does when it answers a next state, one constructor per shape of effect. -/
inductive Effect : Instr → State → State → Prop where
  | raised (i s e) (h : mayRaise i e = true) : Effect i s (s.raised e)
  | sys (s nnn) : Effect (.sys nnn) s s
  | cls (s : State) : Effect .cls s { s with disp := Display.clear }
  | ret (s : State) (h : s.sp.toNat - 1 < 16) (h0 : s.sp ≠ 0#8) :
      Effect .ret s { s with sp := s.sp - 1#8, pc := s.stack[s.sp.toNat - 1] }
  | jump (i s t) (h : targetOk t = true) : Effect i s (s.jump t)
  | call (s : State) (nnn) (h : s.sp.toNat < 16) (ht : targetOk (addrOf nnn) = true) :
      Effect (.call nnn) s
        { s with stack := s.stack.set s.sp.toNat s.pc h, sp := s.sp + 1#8, pc := BitVec.ofNat 16 (addrOf nnn) }
  | skip (i s c) (h : ∀ x, i ≠ .ldVxK x) : Effect i s (s.skipIf c)
  | reg (i s x b) (h : producesFlag i = false → destinationVf i = false → x ≠ 0xF#4) : Effect i s (s.setReg x b)
  | flag (i s x r f) (h : producesFlag i = true) : Effect i s (s.writeResultAndFlag vfWriteOrder x r f)
  | rnd (s : State) (x nn) :
      Effect (.rnd x nn) s { s.setReg x (Config.randomByte s.draws &&& nn) with draws := s.draws + 1 }
  | index (i) (s : State) (w) (h : writesIndex i = true) : Effect i s { s with i := w }
  | bcd (s : State) (x) (h : dataRangeOk s.i.toNat 3 = true) :
      Effect (.ldB x) s { s with mem := Memory.writeBytes s.mem s.i.toNat (bcdDigits (s.reg x)) }
  | store (s : State) (x) (h : dataRangeOk s.i.toNat (blockLen x) = true) :
      Effect (.ldStore x) s ({ s with mem := Memory.writeBytes s.mem s.i.toNat (s.regsUpTo x) }.advanceI x)
  | load (s : State) (x) (h : dataRangeOk s.i.toNat (blockLen x) = true) :
      Effect (.ldLoad x) s ((s.loadRegs s.i.toNat (blockLen x)).advanceI x)
  | draw (s : State) (x y n) (h : spriteRangeOk s.i.toNat n.toNat = true) :
      Effect (.drw x y n) s ({ s with disp := (s.drawn x y n).1 }.setReg vf (boolByte (s.drawn x y n).2))
  | keyTaken (s : State) (x k) (h : s.pend = some k) :
      Effect (.ldVxK x) s { s.setReg x (k.setWidth 8) with pend := none }
  | keyAwaited (s : State) (x) (h : s.pend = none) : Effect (.ldVxK x) s { s.rewind with wait := true }
  | delay (s : State) (x) : Effect (.ldDt x) s { s with dt := s.reg x }
  | sound (s : State) (x) : Effect (.ldSt x) s { s with st := s.reg x }

/-- The inversion of `exec`. -/
theorem exec_effect {i : Instr} {s t : State} (h : exec i s = .next t) : Effect i s t := by
  cases i <;> simp only [exec, execRet, execSkp, execSknp] at h
  case sys => cases h; exact .sys _ _
  case cls => cases h; exact .cls _
  case ret =>
    rcases pop_cases s with ⟨_, e⟩ | ⟨h', h0, e⟩ | ⟨_, e⟩ <;> rw [e] at h
    · rw [raise_next h]; exact .raised _ _ _ rfl
    · cases h; exact .ret s h' h0
    · cases h
  case jp nnn =>
    rcases execJp_cases nnn s with ⟨ht, e⟩ | ⟨_, e⟩ <;> rw [e] at h
    · cases h; exact .jump _ _ _ ht
    · rw [raise_next h]; exact .raised _ _ _ rfl
  case jpV0 nnn =>
    rcases execJpV0_cases nnn s with ⟨ht, e⟩ | ⟨_, e⟩ <;> rw [e] at h
    · cases h; exact .jump _ _ _ ht
    · rw [raise_next h]; exact .raised _ _ _ rfl
  case call nnn =>
    rcases execCall_cases nnn s with ⟨ht, e⟩ | ⟨_, e⟩ <;> rw [e] at h
    · rcases pushJump_cases s (addrOf nnn) with ⟨hs, e⟩ | ⟨_, e⟩ <;> rw [e] at h
      · cases h; exact .call s nnn hs ht
      · rw [raise_next h]; exact .raised _ _ _ rfl
    · rw [raise_next h]; exact .raised _ _ _ rfl
  case ldF x =>
    rcases execLdF_cases x s with ⟨_, e⟩ | ⟨_, e⟩ <;> rw [e] at h
    · cases h; exact .index _ _ _ rfl
    · rw [raise_next h]; exact .raised _ _ _ rfl
  case ldB x =>
    rcases execLdB_cases x s with ⟨hr, e⟩ | ⟨_, e⟩ <;> rw [e] at h
    · cases h; exact .bcd _ _ hr
    · rw [raise_next h]; exact .raised _ _ _ rfl
  case ldStore x =>
    rcases execLdStore_cases x s with ⟨hr, e⟩ | ⟨_, e⟩ <;> rw [e] at h
    · cases h; exact .store _ _ hr
    · rw [raise_next h]; exact .raised _ _ _ rfl
  case ldLoad x =>
    rcases execLdLoad_cases x s with ⟨hr, e⟩ | ⟨_, e⟩ <;> rw [e] at h
    · cases h; exact .load _ _ hr
    · rw [raise_next h]; exact .raised _ _ _ rfl
  case drw x y n =>
    rcases execDrw_cases x y n s with ⟨hr, e⟩ | ⟨_, e⟩ <;> rw [e] at h
    · cases h; exact .draw _ _ _ _ hr
    · rw [raise_next h]; exact .raised _ _ _ rfl
  case skp x =>
    rcases skipOnKey_cases true x s with ⟨_, e⟩ | ⟨_, e⟩ <;> rw [e] at h
    · cases h; exact .skip _ _ _ (by simp)
    · rw [raise_next h]; exact .raised _ _ _ rfl
  case sknp x =>
    rcases skipOnKey_cases false x s with ⟨_, e⟩ | ⟨_, e⟩ <;> rw [e] at h
    · cases h; exact .skip _ _ _ (by simp)
    · rw [raise_next h]; exact .raised _ _ _ rfl
  case ldVxK x =>
    rcases execLdVxK_cases x s with ⟨k, hk, e⟩ | ⟨hk, e⟩ <;> rw [e] at h <;> cases h
    · exact .keyTaken s x k hk
    · exact .keyAwaited s x hk
  case rnd => cases h; exact .rnd _ _ _
  case ldDt => cases h; exact .delay _ _
  case ldSt => cases h; exact .sound _ _
  case ldI => cases h; exact .index _ _ _ rfl
  case addI => cases h; exact .index _ _ _ rfl
  case seByte => cases h; exact .skip _ _ _ (by simp)
  case sneByte => cases h; exact .skip _ _ _ (by simp)
  case seReg => cases h; exact .skip _ _ _ (by simp)
  case sneReg => cases h; exact .skip _ _ _ (by simp)
  case addReg => cases h; exact .flag _ _ _ _ _ rfl
  case sub => cases h; exact .flag _ _ _ _ _ rfl
  case subn => cases h; exact .flag _ _ _ _ _ rfl
  case shr => cases h; exact .flag _ _ _ _ _ rfl
  case shl => cases h; exact .flag _ _ _ _ _ rfl
  all_goals
    cases h
    exact .reg _ _ _ _ fun _ hv => by simpa [destinationVf] using hv

/-- A next state of an instruction raised an error or left the fields of `Quiet`. -/
theorem exec_next {i : Instr} {s t : State} (h : exec i s = .next t) : (∃ e, t = s.raised e) ∨ Quiet s t := by
  cases exec_effect h
  case raised => exact .inl ⟨_, rfl⟩
  all_goals exact .inr (by constructor <;> simp)

/-! ### The parts of a cycle -/

theorem unchangedBut_tickTimers (s : State) (d : Rat) :
    UnchangedBut [.time, .delayTimer, .soundTimer] s (s.tickTimers d) := by
  intro p hp; cases p <;> simp_all [Part.same, State.reg]

theorem unchangedBut_toneEdge (s : State) : UnchangedBut [.tone, .outputs] s s.toneEdge := by
  intro p hp; cases p <;> simp_all [Part.same, State.reg]

/-- While waiting, nothing is fetched (R182). -/
theorem cycleBody_waiting {s : State} (h : s.wait = true) : s.cycleBody = .next s := by
  simp [State.cycleBody, h]

theorem cycleBody_running {s : State} (h : s.wait = false) : s.cycleBody = s.runOne := by
  simp [State.cycleBody, h]

theorem fetchWord_eq {s : State} (h : s.pc.toNat + 1 ≤ 0xFFF) : s.fetchWord = some (wordAtPc s) := if_neg (by omega)

/-- A word that decodes runs its instruction after the fetch advance (20_memory.md R55). -/
theorem runOne_ok {s : State} {i : Instr} (h : s.pc.toNat + 1 ≤ 0xFFF) (hd : decode (wordAtPc s) = .ok i) :
    s.runOne = exec i s.advance := by
  unfold State.runOne; rw [fetchWord_eq h]; simp only [hd]

/-- A word that does not decode raises after the fetch advance (60_exceptions.md R201). -/
theorem runOne_error {s : State} {r : DecodeReject} (h : s.pc.toNat + 1 ≤ 0xFFF) (hd : decode (wordAtPc s) = .error r) :
    s.runOne = raise (.decodeError (wordAtPc s) s.pc s.advance.snapshot) s.advance := by
  unfold State.runOne; rw [fetchWord_eq h]; simp only [hd]

/-- Everything the part of a cycle after the ticks can be (R180, R182). -/
theorem cycleBody_next {s u : State} (h : s.cycleBody = .next u) :
    (s.wait = true ∧ u = s) ∨
    (s.wait = false ∧ s.pc.toNat < 0xFFF ∧ ∃ i, exec i s.advance = .next u) ∨
    (s.wait = false ∧ s.pc.toNat < 0xFFF ∧ ∃ e, u = s.advance.raised e) ∨
    (s.wait = false ∧ 0xFFF ≤ s.pc.toNat ∧ ∃ e, u = s.raised e) := by
  cases hw : s.wait
  · rw [cycleBody_running hw] at h
    rcases runOne_cases s with ⟨hp, e⟩ | ⟨hp, w, _, ⟨i, _, e⟩ | ⟨r, _, e⟩⟩ <;> rw [e] at h
    · exact .inr (.inr (.inr ⟨rfl, hp, _, raise_next h⟩))
    · exact .inr (.inl ⟨rfl, hp, i, h⟩)
    · exact .inr (.inr (.inl ⟨rfl, hp, _, raise_next h⟩))
  · rw [cycleBody_waiting hw] at h
    cases h; exact .inl ⟨rfl, rfl⟩

@[simp] theorem wordAtPc_tickTimers (s : State) (d : Rat) : wordAtPc (s.tickTimers d) = wordAtPc s := rfl

end Sys2Proof.Machine
end

