-- ==== Sys2Proof/Laws/PerInstr.lean ====
section
/-! SUPPORT. Facts about every instruction as syntax, one lemma per constructor. -/

namespace Sys2Proof.Laws.WordShape

/-- The mask and the match of the instruction's row in spec/opcode_table.json (30_encoding.md R82). -/
def row : Instr → Word × Word
  | .sys _ => (0xF000, 0x0000)
  | .cls => (0xFFFF, 0x00E0)
  | .ret => (0xFFFF, 0x00EE)
  | .jp _ => (0xF000, 0x1000)
  | .call _ => (0xF000, 0x2000)
  | .seByte _ _ => (0xF000, 0x3000)
  | .sneByte _ _ => (0xF000, 0x4000)
  | .seReg _ _ => (0xF00F, 0x5000)
  | .ldByte _ _ => (0xF000, 0x6000)
  | .addByte _ _ => (0xF000, 0x7000)
  | .ldReg _ _ => (0xF00F, 0x8000)
  | .orReg _ _ => (0xF00F, 0x8001)
  | .andReg _ _ => (0xF00F, 0x8002)
  | .xorReg _ _ => (0xF00F, 0x8003)
  | .addReg _ _ => (0xF00F, 0x8004)
  | .sub _ _ => (0xF00F, 0x8005)
  | .shr _ _ => (0xF00F, 0x8006)
  | .subn _ _ => (0xF00F, 0x8007)
  | .shl _ _ => (0xF00F, 0x800E)
  | .sneReg _ _ => (0xF00F, 0x9000)
  | .ldI _ => (0xF000, 0xA000)
  | .jpV0 _ => (0xF000, 0xB000)
  | .rnd _ _ => (0xF000, 0xC000)
  | .drw _ _ _ => (0xF000, 0xD000)
  | .skp _ => (0xF0FF, 0xE09E)
  | .sknp _ => (0xF0FF, 0xE0A1)
  | .ldVxDt _ => (0xF0FF, 0xF007)
  | .ldVxK _ => (0xF0FF, 0xF00A)
  | .ldDt _ => (0xF0FF, 0xF015)
  | .ldSt _ => (0xF0FF, 0xF018)
  | .addI _ => (0xF0FF, 0xF01E)
  | .ldF _ => (0xF0FF, 0xF029)
  | .ldB _ => (0xF0FF, 0xF033)
  | .ldStore _ => (0xF0FF, 0xF055)
  | .ldLoad _ => (0xF0FF, 0xF065)

/-- The instruction's word matches its row of the opcode table: masked, it is the row's match. -/
def Statement (i : Instr) : Prop := encode i &&& (row i).1 = (row i).2

theorem wordNnn_mask : ∀ op : Nibble, ∀ nnn : Addr12,
    wordNnn op nnn &&& 0xF000#16 = op ++ 0x000#12 := by
  intro op nnn
  have : (0xF000#16 : Word) = 0xF#4 ++ 0x000#12 := by decide
  rw [this, wordNnn, BitVec.and_append]
  simp only [BitVec.and_zero]
  congr 1
  exact BitVec.and_allOnes

theorem wordXyn_mask : ∀ op x y n : Nibble, wordXyn op x y n &&& 0xF00F#16 = op ++ 0x00#8 ++ n := by
  intro op x y n
  have h1 : (0xF00F#16 : Word) = 0xF#4 ++ 0x0#4 ++ 0x0#4 ++ 0xF#4 := by decide
  have h2 : (op ++ 0x00#8 ++ n : Word) = op ++ 0x0#4 ++ 0x0#4 ++ n := by revert op n; decide
  have ho : op &&& 0xF#4 = op := BitVec.and_allOnes
  have hn : n &&& 0xF#4 = n := BitVec.and_allOnes
  rw [h1, h2, wordXyn, BitVec.and_append, BitVec.and_append, BitVec.and_append, ho, hn, BitVec.and_zero, BitVec.and_zero]

theorem wordXnn_mask_op : ∀ op x : Nibble, ∀ nn : Byte, wordXnn op x nn &&& 0xF000#16 = op ++ 0x000#12 := by
  intro op x nn
  have h1 : (0xF000#16 : Word) = 0xF#4 ++ 0x0#4 ++ 0x00#8 := by decide
  have h2 : (op ++ 0x000#12 : Word) = op ++ 0x0#4 ++ 0x00#8 := by revert op; decide
  have ho : op &&& 0xF#4 = op := BitVec.and_allOnes
  rw [h1, h2, wordXnn, BitVec.and_append, BitVec.and_append, ho, BitVec.and_zero, BitVec.and_zero]

theorem wordXnn_mask : ∀ op x : Nibble, ∀ nn : Byte, wordXnn op x nn &&& 0xF0FF#16 = op ++ 0x0#4 ++ nn := by
  intro op x nn
  have h1 : (0xF0FF#16 : Word) = 0xF#4 ++ 0x0#4 ++ 0xFF#8 := by decide
  have ho : op &&& 0xF#4 = op := BitVec.and_allOnes
  have hn : nn &&& 0xFF#8 = nn := BitVec.and_allOnes
  rw [h1, wordXnn, BitVec.and_append, BitVec.and_append, ho, hn, BitVec.and_zero]

theorem wordXyn_mask_op : ∀ op x y n : Nibble, wordXyn op x y n &&& 0xF000#16 = op ++ 0x000#12 := by
  intro op x y n
  have h1 : (0xF000#16 : Word) = 0xF#4 ++ 0x0#4 ++ 0x0#4 ++ 0x0#4 := by decide
  have h2 : (op ++ 0x000#12 : Word) = op ++ 0x0#4 ++ 0x0#4 ++ 0x0#4 := by revert op; decide
  have ho : op &&& 0xF#4 = op := BitVec.and_allOnes
  rw [h1, h2, wordXyn, BitVec.and_append, BitVec.and_append, BitVec.and_append, ho,
    BitVec.and_zero, BitVec.and_zero, BitVec.and_zero]

theorem sys (nnn : Addr12) : Statement (.sys nnn) := (wordNnn_mask _ _).trans rfl
theorem cls : Statement .cls := by unfold Statement; decide
theorem ret : Statement .ret := by unfold Statement; decide
theorem jp (nnn : Addr12) : Statement (.jp nnn) := (wordNnn_mask _ _).trans rfl
theorem call (nnn : Addr12) : Statement (.call nnn) := (wordNnn_mask _ _).trans rfl
theorem seByte (x : Nibble) (nn : Byte) : Statement (.seByte x nn) := (wordXnn_mask_op _ _ _).trans rfl
theorem sneByte (x : Nibble) (nn : Byte) : Statement (.sneByte x nn) := (wordXnn_mask_op _ _ _).trans rfl
theorem seReg (x y : Nibble) : Statement (.seReg x y) := (wordXyn_mask _ _ _ _).trans rfl
theorem ldByte (x : Nibble) (nn : Byte) : Statement (.ldByte x nn) := (wordXnn_mask_op _ _ _).trans rfl
theorem addByte (x : Nibble) (nn : Byte) : Statement (.addByte x nn) := (wordXnn_mask_op _ _ _).trans rfl
theorem ldReg (x y : Nibble) : Statement (.ldReg x y) := (wordXyn_mask _ _ _ _).trans rfl
theorem orReg (x y : Nibble) : Statement (.orReg x y) := (wordXyn_mask _ _ _ _).trans rfl
theorem andReg (x y : Nibble) : Statement (.andReg x y) := (wordXyn_mask _ _ _ _).trans rfl
theorem xorReg (x y : Nibble) : Statement (.xorReg x y) := (wordXyn_mask _ _ _ _).trans rfl
theorem addReg (x y : Nibble) : Statement (.addReg x y) := (wordXyn_mask _ _ _ _).trans rfl
theorem sub (x y : Nibble) : Statement (.sub x y) := (wordXyn_mask _ _ _ _).trans rfl
theorem shr (x y : Nibble) : Statement (.shr x y) := (wordXyn_mask _ _ _ _).trans rfl
theorem subn (x y : Nibble) : Statement (.subn x y) := (wordXyn_mask _ _ _ _).trans rfl
theorem shl (x y : Nibble) : Statement (.shl x y) := (wordXyn_mask _ _ _ _).trans rfl
theorem sneReg (x y : Nibble) : Statement (.sneReg x y) := (wordXyn_mask _ _ _ _).trans rfl
theorem ldI (nnn : Addr12) : Statement (.ldI nnn) := (wordNnn_mask _ _).trans rfl
theorem jpV0 (nnn : Addr12) : Statement (.jpV0 nnn) := (wordNnn_mask _ _).trans rfl
theorem rnd (x : Nibble) (nn : Byte) : Statement (.rnd x nn) := (wordXnn_mask_op _ _ _).trans rfl
theorem drw (x y n : Nibble) : Statement (.drw x y n) := (wordXyn_mask_op _ _ _ _).trans rfl
theorem skp (x : Nibble) : Statement (.skp x) := (wordXnn_mask _ _ _).trans rfl
theorem sknp (x : Nibble) : Statement (.sknp x) := (wordXnn_mask _ _ _).trans rfl
theorem ldVxDt (x : Nibble) : Statement (.ldVxDt x) := (wordXnn_mask _ _ _).trans rfl
theorem ldVxK (x : Nibble) : Statement (.ldVxK x) := (wordXnn_mask _ _ _).trans rfl
theorem ldDt (x : Nibble) : Statement (.ldDt x) := (wordXnn_mask _ _ _).trans rfl
theorem ldSt (x : Nibble) : Statement (.ldSt x) := (wordXnn_mask _ _ _).trans rfl
theorem addI (x : Nibble) : Statement (.addI x) := (wordXnn_mask _ _ _).trans rfl
theorem ldF (x : Nibble) : Statement (.ldF x) := (wordXnn_mask _ _ _).trans rfl
theorem ldB (x : Nibble) : Statement (.ldB x) := (wordXnn_mask _ _ _).trans rfl
theorem ldStore (x : Nibble) : Statement (.ldStore x) := (wordXnn_mask _ _ _).trans rfl
theorem ldLoad (x : Nibble) : Statement (.ldLoad x) := (wordXnn_mask _ _ _).trans rfl

end Sys2Proof.Laws.WordShape
end

