-- ==== Sys2Proof/Tests/Slice0.lean ====
section
/-! SUPPORT. Tests whose expected results are written out from spec/ (95_test_vectors.md, 30_encoding.md R82, R88), and,
for each statement with hypotheses, a witness that meets them. -/

namespace Sys2Proof.Tests

open Sys2Proof Sys2Proof.Machine Sys2Proof.Safety

/-! ### Helpers -/

/-- The outcome is a next state with the property. -/
def nextIs (o : Result) (p : State → Bool) : Bool :=
  match o with
  | .next t => p t
  | .fault _ => false
  | .refused _ => false

/-- The state with the listed registers set. -/
def withRegs (l : List (Nibble × Byte)) (s : State) : State := l.foldl (fun s r => s.setReg r.1 r.2) s

/-- The state with the listed bytes at an address. -/
def withBytes (a : Nat) (bytes : List Byte) (s : State) : State := { s with mem := Memory.writeBytes s.mem a bytes }

/-- The start of 95_test_vectors.md: the reset state after a load. -/
def start : State := { State.reset with loaded := true }

/-- The outcome is that refusal. -/
def refusedAs (o : Result) (r : Refusal) : Bool :=
  match o with
  | .next _ => false
  | .fault _ => false
  | .refused q => q == r

/-- The step that runs the word at PC. -/
def cyc (w : Nat) (s : State) : Result := step (s.withFetchWord 16 w)

/-- The step raised the error; PC is the given value. -/
def raisesAt (o : Result) (e : Error) (pc : Word) : Bool :=
  nextIs o fun t => t.fault == some e && t.out == [.error e] && t.pc == pc

/-- The bytes from an address on. -/
def bytesAt (s : State) (a n : Nat) : List Byte := (List.range n).map fun k => Memory.read s.mem (a + k)

/-! ### Well-formedness -/

theorem test_wellFormed_refuses_non_sys :
    (Instr.sys 0x000).wellFormed = false ∧ (Instr.sys 0x0E0).wellFormed = false ∧
    (Instr.sys 0x0EE).wellFormed = false ∧ (Instr.sys 0x0E1).wellFormed = true := by decide

/-! ### Decode: a word per constructor, by the patterns of R82 -/

theorem test_decode_class_0 :
    decode 0x00E0#16 = .ok .cls ∧ decode 0x00EE#16 = .ok .ret ∧
    decode 0x00E1#16 = .ok (.sys 0x0E1) ∧ decode 0x0FFF#16 = .ok (.sys 0xFFF) := by decide

theorem test_decode_control :
    decode 0x1201#16 = .ok (.jp 0x201) ∧ decode 0x2150#16 = .ok (.call 0x150) ∧
    decode 0x33A5#16 = .ok (.seByte 0x3 0xA5) ∧ decode 0x43A5#16 = .ok (.sneByte 0x3 0xA5) ∧
    decode 0x5490#16 = .ok (.seReg 0x4 0x9) ∧ decode 0x9120#16 = .ok (.sneReg 0x1 0x2) ∧
    decode 0xBE00#16 = .ok (.jpV0 0xE00) := by decide

theorem test_decode_alu :
    decode 0x600A#16 = .ok (.ldByte 0x0 0x0A) ∧ decode 0x7501#16 = .ok (.addByte 0x5 0x01) ∧
    decode 0x8130#16 = .ok (.ldReg 0x1 0x3) ∧ decode 0x8121#16 = .ok (.orReg 0x1 0x2) ∧
    decode 0x8122#16 = .ok (.andReg 0x1 0x2) ∧ decode 0x8123#16 = .ok (.xorReg 0x1 0x2) ∧
    decode 0x8124#16 = .ok (.addReg 0x1 0x2) ∧ decode 0x8125#16 = .ok (.sub 0x1 0x2) ∧
    decode 0x8126#16 = .ok (.shr 0x1 0x2) ∧ decode 0x8127#16 = .ok (.subn 0x1 0x2) ∧
    decode 0x812E#16 = .ok (.shl 0x1 0x2) ∧ decode 0xC081#16 = .ok (.rnd 0x0 0x81) := by decide

theorem test_decode_index_display_keys_timers :
    decode 0xAFFF#16 = .ok (.ldI 0xFFF) ∧ decode 0xD345#16 = .ok (.drw 0x3 0x4 0x5) ∧
    decode 0xE09E#16 = .ok (.skp 0x0) ∧ decode 0xE7A1#16 = .ok (.sknp 0x7) ∧
    decode 0xF207#16 = .ok (.ldVxDt 0x2) ∧ decode 0xF50A#16 = .ok (.ldVxK 0x5) ∧
    decode 0xF315#16 = .ok (.ldDt 0x3) ∧ decode 0xF018#16 = .ok (.ldSt 0x0) ∧
    decode 0xFB1E#16 = .ok (.addI 0xB) ∧ decode 0xF129#16 = .ok (.ldF 0x1) ∧
    decode 0xFC33#16 = .ok (.ldB 0xC) ∧ decode 0xFA55#16 = .ok (.ldStore 0xA) ∧
    decode 0xF265#16 = .ok (.ldLoad 0x2) := by decide

/-- V-DEC-1, 6, 7, 8, 10, 11. -/
theorem test_decode_undefined :
    decode 0x0000#16 = .error .zeroWord ∧ decode 0x5121#16 = .error .undefinedSkip ∧
    decode 0x912F#16 = .error .undefinedSkip ∧ decode 0x8128#16 = .error .undefinedArithmetic ∧
    decode 0x812D#16 = .error .undefinedArithmetic ∧ decode 0x812F#16 = .error .undefinedArithmetic ∧
    decode 0xE19F#16 = .error .undefinedKey ∧ decode 0xE1A2#16 = .error .undefinedKey ∧
    decode 0xF100#16 = .error .undefinedMisc ∧ decode 0xF156#16 = .error .undefinedMisc ∧
    decode 0xF166#16 = .error .undefinedMisc := by decide

/-- R52: 0x60 at the lower address. R86: the decoder takes one word and gives back the rest. -/
theorem test_decode_bytes :
    bytesOfWord 0x600A#16 = [0x60, 0x0A] ∧
    decodeBytes [0x60, 0x0A, 0x12] = .ok (.ldByte 0x0 0x0A, [0x12]) ∧
    decodeBytes [0x60] = .error .truncated := by decide

theorem test_decodeTableWord :
    decodeTableWord 16 0xD125 = some (.drw 0x1 0x2 0x5) ∧ decodeTableWord 16 0x0000 = none := by decide

/-! ### Control flow (V-CF) -/

/-- V-CF-1. -/
theorem test_sys_only_advances :
    step ({ start with pc := 0x300 }.withFetchWord 16 0x0123) =
      .next ({ start with pc := 0x302 } |> withBytes 0x300 [0x01, 0x23]) := by rfl

/-- V-CF-2. -/
theorem test_ret_empty_stack : raisesAt (cyc 0x00EE { start with pc := 0x300 }) .emptyCallStack 0x302 = true := by decide

/-- V-CF-3. -/
theorem test_ret_keeps_popped_entry :
    nextIs (cyc 0x00EE { start with sp := 2, stack := (start.stack.set 0 0x202).set 1 0x40A })
      (fun t => t.pc == 0x40A && t.sp == 1 && t.stack[1] == 0x40A) = true := by decide

/-- V-CF-4, V-CF-5. -/
theorem test_jp_bounds :
    raisesAt (cyc 0x11FF start) (.invalidAddress 0x1FF) 0x202 = true ∧
    nextIs (cyc 0x1201 start) (fun t => t.pc == 0x201) = true := by decide

/-- V-CF-6. -/
theorem test_jpV0_adds : nextIs (cyc 0xBE00 (withRegs [(0, 0xFF)] start)) (fun t => t.pc == 0xEFF) = true := by decide

/-- V-CF-7, V-CF-8: the sum does not wrap. -/
theorem test_jpV0_bounds :
    raisesAt (cyc 0xBFFF (withRegs [(0, 0x01)] start)) (.invalidAddress 0x1000) 0x202 = true ∧
    raisesAt (cyc 0xB100 start) (.invalidAddress 0x100) 0x202 = true := by decide

/-- W-9. -/
theorem test_call_pushes :
    nextIs (cyc 0x2300 start) (fun t => t.pc == 0x300 && t.sp == 1 && t.stack[0] == 0x202) = true := by decide

/-- V-CF-9 (cycle 17), V-CF-10, V-CF-11: the target is checked first. -/
theorem test_call_errors :
    nextIs (cyc 0x2200 { start with sp := 16 })
      (fun t => t.fault == some .stackOverflow && t.sp == 16 && t.stack == start.stack && t.pc == 0x202) = true ∧
    raisesAt (cyc 0x2150 start) (.invalidAddress 0x150) 0x202 = true ∧
    raisesAt (cyc 0x2150 { start with sp := 16 }) (.invalidAddress 0x150) 0x202 = true := by decide

/-- V-CF-12, V-CF-13. -/
theorem test_seByte :
    nextIs (cyc 0x3300 start) (fun t => t.pc == 0x204) = true ∧
    nextIs (cyc 0x3300 (withRegs [(3, 1)] start)) (fun t => t.pc == 0x202) = true := by decide

/-- V-CF-14, and R106's other case. -/
theorem test_sneByte :
    nextIs (cyc 0x4300 (withRegs [(3, 1)] start)) (fun t => t.pc == 0x204) = true ∧
    nextIs (cyc 0x4300 start) (fun t => t.pc == 0x202) = true := by decide

/-- V-CF-15, and R107's other case. -/
theorem test_seReg :
    nextIs (cyc 0x5440 (withRegs [(4, 7)] start)) (fun t => t.pc == 0x204) = true ∧
    nextIs (cyc 0x5450 (withRegs [(4, 7)] start)) (fun t => t.pc == 0x202) = true := by decide

/-- V-CF-16, and R108's other case. -/
theorem test_sneReg :
    nextIs (cyc 0x9AB0 (withRegs [(10, 9), (11, 9)] start)) (fun t => t.pc == 0x202) = true ∧
    nextIs (cyc 0x9AB0 (withRegs [(10, 9)] start)) (fun t => t.pc == 0x204) = true := by decide

/-- V-CF-17: a skip past the end of memory; the next fetch raises and leaves PC. -/
theorem test_skip_past_memory :
    nextIs (cyc 0x3000 { start with pc := 0xFFE }) (fun t => t.pc == 0x1002 && t.fault == none) = true ∧
    raisesAt (step { start with pc := 0x1002 }) (.memoryAccess 0x1002 2) 0x1002 = true := by decide

/-! ### Arithmetic and logic (V-ALU) -/

/-- V-ALU-1, 3, 4, 6, W-6. -/
theorem test_addReg_inverse_carry :
    nextIs (cyc 0x8124 (withRegs [(1, 0x80), (2, 0x80)] start)) (fun t => t.reg 1 == 0x00 && t.reg 15 == 0) = true ∧
    nextIs (cyc 0x8124 (withRegs [(1, 0x7F), (2, 0x80)] start)) (fun t => t.reg 1 == 0xFF && t.reg 15 == 1) = true ∧
    nextIs (cyc 0x8224 (withRegs [(2, 0x90)] start)) (fun t => t.reg 2 == 0x20 && t.reg 15 == 0) = true ∧
    nextIs (cyc 0x81F4 (withRegs [(1, 0xFF), (15, 0x01)] start)) (fun t => t.reg 1 == 0 && t.reg 15 == 0) = true := by
  decide

/-- V-ALU-5: the flag is written last; under ResultLast VF ends as the result. -/
theorem test_addReg_vf_destination :
    nextIs (cyc 0x8F14 (withRegs [(15, 0x10), (1, 0x20)] start)) (fun t => t.reg 15 == 1) = true ∧
    (start.writeResultAndFlag .resultLast 15 0x30 1).reg 15 = 0x30#8 := by decide

/-- V-ALU-7, 8, W-7. -/
theorem test_sub_no_borrow :
    nextIs (cyc 0x8125 (withRegs [(1, 0x42), (2, 0x42)] start)) (fun t => t.reg 1 == 0 && t.reg 15 == 1) = true ∧
    nextIs (cyc 0x8125 (withRegs [(1, 0x00), (2, 0xFF)] start)) (fun t => t.reg 1 == 1 && t.reg 15 == 0) = true ∧
    nextIs (cyc 0x8125 (withRegs [(1, 0x01), (2, 0x02)] start)) (fun t => t.reg 1 == 0xFF && t.reg 15 == 0) = true := by
  decide

/-- V-ALU-9, 10, 11. -/
theorem test_subn_borrow :
    nextIs (cyc 0x8127 (withRegs [(1, 0x02), (2, 0x01)] start)) (fun t => t.reg 1 == 0xFF && t.reg 15 == 1) = true ∧
    nextIs (cyc 0x8127 (withRegs [(1, 0x01), (2, 0x02)] start)) (fun t => t.reg 1 == 1 && t.reg 15 == 0) = true ∧
    nextIs (cyc 0x8127 (withRegs [(1, 0x42), (2, 0x42)] start)) (fun t => t.reg 1 == 0 && t.reg 15 == 0) = true := by
  decide

/-- V-ALU-12, 13. -/
theorem test_shr :
    nextIs (cyc 0x8106 (withRegs [(1, 0x01)] start)) (fun t => t.reg 1 == 0x00 && t.reg 15 == 1) = true ∧
    nextIs (cyc 0x8106 (withRegs [(1, 0xFE)] start)) (fun t => t.reg 1 == 0x7F && t.reg 15 == 0) = true := by decide

/-- V-ALU-14: InPlace on the machine, FromVy as the other value of the parameter. -/
theorem test_shr_source :
    nextIs (cyc 0x8126 (withRegs [(1, 0x04), (2, 0x03)] start)) (fun t => t.reg 1 == 2 && t.reg 15 == 0) = true ∧
    ((withRegs [(1, 0x04), (2, 0x03)] start).shiftRight .fromVy .flagLast 1 2).reg 1 = 0x01#8 ∧
    ((withRegs [(1, 0x04), (2, 0x03)] start).shiftRight .fromVy .flagLast 1 2).reg 15 = 0x01#8 := by decide

/-- V-ALU-15, 16. -/
theorem test_shl :
    nextIs (cyc 0x810E (withRegs [(1, 0x80)] start)) (fun t => t.reg 1 == 0x00 && t.reg 15 == 1) = true ∧
    nextIs (cyc 0x810E (withRegs [(1, 0x7F)] start)) (fun t => t.reg 1 == 0xFE && t.reg 15 == 0) = true := by decide

/-- V-ALU-17. -/
theorem test_shl_vf :
    nextIs (cyc 0x8F0E (withRegs [(15, 0x81)] start)) (fun t => t.reg 15 == 1) = true ∧
    ((withRegs [(15, 0x81)] start).shiftLeft .inPlace .resultLast 15 0).reg 15 = 0x02#8 := by decide

/-- V-ALU-18. -/
theorem test_addByte_no_flag :
    nextIs (cyc 0x7501 (withRegs [(5, 0xFF), (15, 0x55)] start)) (fun t => t.reg 5 == 0 && t.reg 15 == 0x55) = true := by
  decide

/-- V-ALU-19. -/
theorem test_logic :
    nextIs (cyc 0x8121 (withRegs [(1, 0xF0), (2, 0x0F), (15, 0x55)] start))
      (fun t => t.reg 1 == 0xFF && t.reg 15 == 0x55) = true ∧
    nextIs (cyc 0x8122 (withRegs [(1, 0xF0), (2, 0x0F), (15, 0x55)] start))
      (fun t => t.reg 1 == 0x00 && t.reg 15 == 0x55) = true ∧
    nextIs (cyc 0x8123 (withRegs [(1, 0xF0), (2, 0x0F), (15, 0x55)] start))
      (fun t => t.reg 1 == 0xFF && t.reg 15 == 0x55) = true := by decide

/-- V-ALU-20, 23, 24. -/
theorem test_loads_and_self_xor :
    nextIs (cyc 0x8333 (withRegs [(3, 0xA5)] start)) (fun t => t.reg 3 == 0) = true ∧
    nextIs (cyc 0x6F07 start) (fun t => t.reg 15 == 7) = true ∧
    nextIs (cyc 0x8130 (withRegs [(3, 0x5A)] start)) (fun t => t.reg 1 == 0x5A && t.reg 3 == 0x5A) = true := by decide

/-- V-ALU-21: whatever byte is drawn. -/
theorem test_rnd_zero_mask : ∃ t, exec (.rnd 0x0 0x00) start = .next t ∧ t.reg 0x0 = 0x00#8 :=
  ⟨_, rfl, BitVec.and_zero⟩

/-! ### Address register and memory (V-MEM) -/

/-- V-MEM-1. -/
theorem test_ldI : nextIs (cyc 0xAFFF start) (fun t => t.i == 0xFFF) = true := by decide

/-- V-MEM-2. -/
theorem test_addI_wraps :
    nextIs (cyc 0xF01E (withRegs [(0, 0x02), (15, 0x33)] { start with i := 0xFFFF }))
      (fun t => t.i == 0x0001 && t.reg 15 == 0x33) = true := by decide

/-- V-MEM-3, 4. -/
theorem test_ldF :
    nextIs (cyc 0xF029 (withRegs [(0, 0x0F)] start)) (fun t => t.i == 0x004B) = true ∧
    nextIs (cyc 0xF029 (withRegs [(0, 0x10)] { start with i := 0x300 }))
      (fun t => t.fault == some (.invalidDigit 0x10) && t.i == 0x300) = true := by decide

/-- V-MEM-7, 9. -/
theorem test_ldB_digits :
    nextIs (cyc 0xF033 (withRegs [(0, 255)] { start with i := 0x300 }))
      (fun t => bytesAt t 0x300 3 == [2, 5, 5] && t.i == 0x300) = true ∧
    nextIs (cyc 0xF033 (withRegs [(0, 123)] { start with i := 0xFFC }))
      (fun t => bytesAt t 0xFFC 3 == [1, 2, 3]) = true := by decide

/-- V-MEM-8, 10. -/
theorem test_ldB_bounds :
    raisesAt (cyc 0xF033 { start with i := 0x1FF }) (.memoryAccess 0x1FF 3) 0x202 = true ∧
    raisesAt (cyc 0xF033 { start with i := 0xFFD }) (.memoryAccess 0xFFD 3) 0x202 = true := by decide

/-- The registers of V-MEM-13. -/
def counting : State :=
  withRegs [(1, 1), (2, 2), (3, 3), (4, 4), (5, 5), (6, 6), (7, 7), (8, 8), (9, 9), (10, 10), (11, 11), (12, 12),
    (13, 13), (14, 14), (15, 15)] start

/-- V-MEM-13. -/
theorem test_ldStore_all :
    nextIs (cyc 0xFF55 { counting with i := 0xFEF })
      (fun t => bytesAt t 0xFEF 16 == [0, 1, 2, 3, 4, 5, 6, 7, 8, 9, 10, 11, 12, 13, 14, 15] && t.i == 0xFFF) = true := by
  decide

/-- V-MEM-12, 16. -/
theorem test_ldStore_bounds :
    raisesAt (cyc 0xFF55 { start with i := 0xFF0 }) (.memoryAccess 0xFF0 16) 0x202 = true ∧
    raisesAt (cyc 0xF055 { start with i := 0x1000 }) (.memoryAccess 0x1000 1) 0x202 = true := by decide

/-- V-MEM-15, on the first three and the last register. -/
theorem test_ldLoad_all :
    nextIs (cyc 0xFF65 (withBytes 0x600 [16, 17, 18, 19, 20, 21, 22, 23, 24, 25, 26, 27, 28, 29, 30, 31]
      { start with i := 0x600 }))
      (fun t => t.reg 0 == 0x10 && t.reg 1 == 0x11 && t.reg 2 == 0x12 && t.reg 15 == 0x1F && t.i == 0x610) = true := by
  decide

/-- V-MEM-14. -/
theorem test_ldLoad_below_program :
    raisesAt (cyc 0xF065 start) (.memoryAccess 0x000 1) 0x202 = true := by decide

/-! ### Display (V-DISP) -/

/-- V-DISP-1. -/
theorem test_cls :
    nextIs (cyc 0x00E0 (withRegs [(15, 9)] { start with disp := start.disp.toggle 3 4 }))
      (fun t => !t.disp.get 3 4 && !t.disp.get 0 0 && t.reg 15 == 9) = true := by decide

/-- V-DISP-4, 9: wrap on the vertical axis; VF as a coordinate, read before it is written. -/
theorem test_drw_places :
    nextIs (cyc 0xD012 (withRegs [(1, 31)] (withBytes 0x300 [0x80, 0x80] { start with i := 0x300 })))
      (fun t => t.disp.get 31 0 && t.disp.get 0 0 && !t.disp.get 1 0 && !t.disp.get 0 1 && t.reg 15 == 0) = true ∧
    nextIs (cyc 0xDF01 (withRegs [(15, 5)] (withBytes 0x300 [0x80] { start with i := 0x300 })))
      (fun t => t.disp.get 0 5 && !t.disp.get 0 0 && t.reg 15 == 0) = true := by decide

/-- V-DISP-6, 7, 10. -/
theorem test_drw_bounds_and_collision :
    nextIs (cyc 0xD011 (withBytes 0xFFF [0x80] { start with i := 0xFFF })) (fun t => t.disp.get 0 0) = true ∧
    raisesAt (cyc 0xD012 { start with i := 0xFFF }) (.memoryAccess 0xFFF 2) 0x202 = true ∧
    nextIs (cyc 0xD011 (withBytes 0x300 [0xC0] { start with i := 0x300, disp := start.disp.toggle 0 0 }))
      (fun t => !t.disp.get 0 0 && t.disp.get 0 1 && t.reg 15 == 1) = true := by decide

/-- W-5. -/
theorem test_drw_wraps_columns :
    nextIs (cyc 0xD011 (withRegs [(0, 60)] (withBytes 0x300 [0xFF] { start with i := 0x300 })))
      (fun t => [60, 61, 62, 63, 0, 1, 2, 3].all (t.disp.get 0) && !t.disp.get 0 4 && !t.disp.get 0 59 &&
        t.reg 15 == 0) = true := by decide

/-- W-4 on the first sprite row of glyph 0: the second draw clears what the first lit, and collides. -/
theorem test_drw_twice :
    nextIs (exec (.drw 0x0 0x1 0x1) start) (fun t => t.disp.get 0 3 && t.reg 15 == 0 &&
      nextIs (exec (.drw 0x0 0x1 0x1) t) fun u => !u.disp.get 0 3 && !u.disp.get 0 0 && u.reg 15 == 1) = true := by decide

/-! ### Keypad (V-KEY) -/

/-- V-KEY-1, 2, 3. -/
theorem test_skp :
    raisesAt (cyc 0xE09E (withRegs [(0, 0x10)] start)) (.invalidKey 0x10) 0x202 = true ∧
    nextIs (cyc 0xE09E (withRegs [(0, 3)] (start.setKey 3 true))) (fun t => t.pc == 0x204) = true ∧
    nextIs (cyc 0xE09E (withRegs [(0, 3)] start)) (fun t => t.pc == 0x202) = true := by decide

/-- V-KEY-2, 3. -/
theorem test_sknp :
    nextIs (cyc 0xE0A1 (withRegs [(0, 3)] (start.setKey 3 true))) (fun t => t.pc == 0x202) = true ∧
    nextIs (cyc 0xE0A1 (withRegs [(0, 3)] start)) (fun t => t.pc == 0x204) = true := by decide

/-- V-KEY-4, 8. -/
theorem test_ldVxK :
    nextIs (cyc 0xF50A (start.setKey 3 true)) (fun t => t.pc == 0x200 && t.wait && t.pend == none) = true ∧
    nextIs (cyc 0xFF0A { start with pend := some 0xA })
      (fun t => t.reg 15 == 0x0A && t.pend == none && t.pc == 0x202 && !t.wait) = true := by decide

/-- V-KEY-5, 6, 7, 9. -/
theorem test_key_events :
    nextIs (keyDown 4 start) (fun t => t.key 4 && t.pend == none) = true ∧
    nextIs (keyDown 7 { start with wait := true }) (fun t => t.key 7 && t.pend == some 7 && !t.wait) = true ∧
    nextIs (keyDown 8 { start with pend := some 7 }) (fun t => t.key 8 && t.pend == some 7) = true ∧
    nextIs (keyUp 7 { start.setKey 7 true with pend := some 7 }) (fun t => !t.key 7 && t.pend == some 7) = true ∧
    refusedAs (keyDown 16 start) .keyOutOfRange = true := by decide

/-! ### Timers and tone (V-TMR), P = 1/60 -/

/-- V-TMR-1, 3; V-TMR-9's third cycle (ACC = 2P/3). -/
theorem test_ticks :
    ({ start with dt := 3 }.tickTimers (mkRat 5 120)).dt = 1#8 ∧
    ({ start with dt := 3 }.tickTimers (mkRat 5 120)).acc = mkRat 1 120 ∧
    (start.tickTimers (mkRat 10 60)).dt = 0#8 ∧
    ({ start with st := 2, acc := mkRat 2 180 }.tickTimers (mkRat 1 180)).st = 1#8 := by decide

/-- V-TMR-4, 6: the tone stops in the cycle that brings ST to 0, waiting or not. -/
theorem test_tone_stops :
    nextIs (cyc 0x0123 { start with st := 1, tone := true, hostDelta := mkRat 1 60 })
      (fun t => t.st == 0 && !t.tone && t.out == [.stopTone]) = true ∧
    nextIs (step { start with wait := true, st := 1, tone := true, hostDelta := mkRat 1 60 })
      (fun t => t.st == 0 && !t.tone && t.out == [.stopTone] && t.pc == 0x200) = true := by decide

/-- V-TMR-5, 8. -/
theorem test_ldSt :
    nextIs (cyc 0xF018 { start with tone := true }) (fun t => t.st == 0 && t.out == [.stopTone]) = true ∧
    nextIs (cyc 0xF018 (withRegs [(0, 2)] { start with hostDelta := mkRat 3 60 }))
      (fun t => t.st == 2 && t.tone && t.out == [.startTone]) = true := by decide

/-- V-TMR-7, and R166. -/
theorem test_ldVxDt_ldDt :
    nextIs (cyc 0xF207 { start with dt := 5, hostDelta := mkRat 1 60 }) (fun t => t.reg 2 == 4) = true ∧
    nextIs (cyc 0xF315 (withRegs [(3, 7)] start)) (fun t => t.dt == 7) = true := by decide

/-! ### Host operations (V-CYC) -/

/-- V-CYC-1, 2, 3, 6. -/
theorem test_refusals :
    refusedAs (executeCycle 0 State.reset) .notLoaded = true ∧
    refusedAs (loadProgram [0x00] start) .alreadyLoaded = true ∧
    refusedAs (executeCycle 0 { start with fault := some .stackOverflow }) .faultLatched = true ∧
    refusedAs (executeCycle (mkRat (-1) 1) start) .negativeDelta = true := by decide

/-- V-CYC-4. -/
theorem test_reset_stops_tone :
    step { start with fault := some .stackOverflow, tone := true, pc := 0x300, inbox := [.reset] } =
      .next { State.reset with out := [.stopTone] } := by rfl

/-- V-CYC-5, V-DEC-1: an empty program. -/
theorem test_empty_program :
    nextIs (step { State.reset with inbox := [.load []] }) (fun t => t.loaded && t.mem == []) = true ∧
    nextIs (step start) (fun t => t.pc == 0x202 && t.fault ==
      some (.decodeError 0x0000 0x200 { v := State.reset.v, i := 0, sp := 0, pc := 0x202 })) = true := by decide

/-- R190: the load places the program; P1's first word runs next. -/
theorem test_load_then_run :
    nextIs (step { State.reset with inbox := [.load [0x00, 0xE0, 0x60, 0x0A]] })
      (fun t => nextIs (step t) fun u => u.pc == 0x202 && u.fault == none && bytesAt u 0x200 4 == [0x00, 0xE0, 0x60, 0x0A])
      = true := by decide

/-- R200: the labels of the eight errors. -/
theorem test_error_codes :
    [Error.programTooLarge 3585, .decodeError 0 0 start.snapshot, .emptyCallStack, .stackOverflow, .invalidAddress 0,
      .memoryAccess 0 1, .invalidKey 16, .invalidDigit 16].map Error.code = [1, 2, 3, 4, 5, 6, 7, 8] := by decide

/-- R27: glyph 0 and glyph 5 (P3), and the size of the table. -/
theorem test_font :
    bytesAt State.reset 0x000 5 = [0xF0, 0x90, 0x90, 0x90, 0xF0] ∧
    bytesAt State.reset 0x019 5 = [0xF0, 0x80, 0xF0, 0x10, 0xF0] ∧ fontTable.length = 80 := by decide

/-- A write that puts back the reset byte leaves nothing listed. -/
theorem test_memory_canonical :
    Memory.write (Memory.write [] 0x300 0x12) 0x300 0x00 = [] ∧
    Memory.write (Memory.write [] 0x301 0x12) 0x300 0x34 = [(0x300, 0x34), (0x301, 0x12)] := by decide

/-! ### Witnesses: for each statement with hypotheses, a state and operands that meet them, per clause and at the
boundaries. Each is named after its statement. -/

theorem test_hyps_decodeOfEncode : (Instr.sys 0xFFF).wellFormed = true ∧ (Instr.ldLoad 0xF).wellFormed = true := by decide

theorem test_hyps_encodeOfDecode : decode 0xD345#16 = .ok (.drw 0x3 0x4 0x5) := by decide

/-- Both sides of the equivalence, true and false. -/
theorem test_hyps_undefinedWordsRejected :
    decode 0x5FF1#16 = .error .undefinedSkip ∧ (0x5FF1#16).toNat / 0x1000 = 0x5 ∧ (0x5FF1#16).toNat % 0x10 ≠ 0 ∧
    decode 0x5FF0#16 = .ok (.seReg 0xF 0xF) := by decide

/-- A state that meets the host's contract, with `w` at PC. -/
def ready (pc : Word) (w : Word) : State := withBytes pc.toNat (bytesOfWord w) { start with pc := pc }

theorem mayCycle_start (s : State) (h1 : s.loaded = true) (h2 : s.fault = none) : HostMayCycle 0 s := ⟨h1, h2, le_refl 0⟩

/-- Both clauses, with PC at the last place a word fits. -/
theorem test_hyps_stepRunsDecodedInstruction :
    ((ready 0xFFE 0x600A).wait = false ∧ (ready 0xFFE 0x600A).pc.toNat + 1 ≤ 0xFFF ∧
      decode (wordAtPc (ready 0xFFE 0x600A)) = .ok (.ldByte 0x0 0x0A)) ∧
    ((ready 0xFFE 0x600A).inbox = [] ∧ HostMayCycle (ready 0xFFE 0x600A).hostDelta (ready 0xFFE 0x600A)) ∧
    ({ ready 0xFFE 0x600A with inbox := [.executeCycle 0, .reset] }.inbox = .executeCycle 0 :: [.reset] ∧
      HostMayCycle 0 { ready 0xFFE 0x600A with inbox := [.executeCycle 0, .reset] }) :=
  ⟨by decide, ⟨rfl, mayCycle_start _ rfl rfl⟩, rfl, mayCycle_start _ rfl rfl⟩

theorem test_hyps_undefinedWordLatchesDecodeError :
    HostMayCycle 0 (ready 0xFFE 0x8128) ∧ (ready 0xFFE 0x8128).wait = false ∧
    (ready 0xFFE 0x8128).pc.toNat + 1 ≤ 0xFFF ∧ decode (wordAtPc (ready 0xFFE 0x8128)) = .error .undefinedArithmetic :=
  ⟨mayCycle_start _ rfl rfl, by decide⟩

theorem test_hyps_fetchPastMemoryRaises :
    HostMayCycle 0 { start with pc := 0xFFF } ∧ { start with pc := 0xFFF }.wait = false ∧
    0xFFF ≤ { start with pc := 0xFFF }.pc.toNat :=
  ⟨mayCycle_start _ rfl rfl, by decide⟩

theorem test_hyps_waitingCycleOnlyTicks :
    HostMayCycle 0 { start with wait := true } ∧ { start with wait := true }.wait = true :=
  ⟨mayCycle_start _ rfl rfl, rfl⟩

theorem test_hyps_ticksCountWholePeriods : 0 ≤ { start with acc := mkRat 1 120 }.acc ∧ (0 : Rat) ≤ mkRat 1 60 := by
  constructor <;> norm_num [Rat.mkRat_eq_div]

/-- A cycle that starts the tone. -/
theorem test_hyps_toneFollowsSoundTimer :
    executeCycle 0 { ready 0x200 0xF018 with v := start.v.set 0 2 } =
      .next { ready 0x200 0xF018 with
        v := start.v.set 0 2, pc := 0x202, st := 2, tone := true, out := [.startTone] } ∧
    { ready 0x200 0xF018 with
        v := start.v.set 0 2, pc := 0x202, st := 2, tone := true, out := [.startTone] }.fault = none := ⟨by rfl, rfl⟩

/-- A cycle that raises: RET on an empty stack. -/
theorem test_hyps_failedCycleState :
    executeCycle 0 (ready 0x200 0x00EE) =
      .next { ready 0x200 0x00EE with pc := 0x202, fault := some .emptyCallStack, out := [.error .emptyCallStack] } ∧
    { ready 0x200 0x00EE with
        pc := 0x202, fault := some .emptyCallStack, out := [.error .emptyCallStack] }.fault =
      some .emptyCallStack := ⟨by rfl, rfl⟩

theorem test_hyps_cyclesAlwaysAnswer :
    HostMayCycle 0 { start with sp := 16 } ∧ { start with sp := 16 }.sp.toNat ≤ 16 :=
  ⟨mayCycle_start _ rfl rfl, by decide⟩

theorem test_hyps_resetFromAnyState : { start with tone := true, inbox := [.reset] }.inbox = .reset :: [] := rfl

/-- The longest program that fits and the shortest that does not (W-2). -/
theorem test_hyps_loadPlacesProgram :
    State.reset.loaded = false ∧ (List.replicate 3584 (0xAA : Byte)).length ≤ 3584 ∧
    3584 < (List.replicate 3585 (0xAA : Byte)).length :=
  ⟨rfl, by rw [List.length_replicate], by rw [List.length_replicate]; decide⟩

/-- Waiting; not waiting; a key already pending. -/
theorem test_hyps_keyEvents :
    ({ start with wait := true }.wait = true ∧ { start with wait := true }.pend = none) ∧
    (start.wait = false ∨ start.pend ≠ none) ∧
    ({ start with pend := some 7 }.wait = false ∨ { start with pend := some 7 }.pend ≠ none) := by decide

theorem test_hyps_contractViolationsRefused :
    State.reset.loaded = false ∧
    ({ start with fault := some .stackOverflow }.loaded = true ∧
      { start with fault := some .stackOverflow }.fault ≠ none) ∧
    (start.loaded = true ∧ start.fault = none ∧ mkRat (-1) 60 < 0) ∧ 15 < 16 := by
  refine ⟨rfl, by decide, ⟨rfl, rfl, ?_⟩, by decide⟩
  norm_num [Rat.mkRat_eq_div]

/-- The first target allowed and the last below it; the last sum inside memory and the first outside. -/
theorem test_hyps_jumpsGoToCheckedTargets :
    0x200 ≤ (0x200#12).toNat ∧ (0x1FF#12).toNat < 0x200 ∧
    (0x200 ≤ (0xFFF#12).toNat + (start.reg 0x0#4).toNat ∧ (0xFFF#12).toNat + (start.reg 0x0#4).toNat < 4096) ∧
    ((0x1FF#12).toNat + (start.reg 0x0#4).toNat < 0x200) ∧
    4096 ≤ (0xFFF#12).toNat + ((withRegs [(0, 1)] start).reg 0x0#4).toNat := by decide

/-- The last free entry; a bad target; a full stack. -/
theorem test_hyps_callPushesAndJumps :
    (0x200 ≤ (0x200#12).toNat ∧ { start with sp := 15 }.sp.toNat < 16) ∧ (0x1FF#12).toNat < 0x200 ∧
    16 ≤ { start with sp := 16 }.sp.toNat := by decide

/-- One entry, a full stack, an empty one, and SP outside its range. -/
theorem test_hyps_retReturns :
    (0 < { start with sp := 1 }.sp.toNat ∧ { start with sp := 1 }.sp.toNat - 1 < 16) ∧
    (0 < { start with sp := 16 }.sp.toNat ∧ { start with sp := 16 }.sp.toNat - 1 < 16) ∧
    start.sp.toNat = 0 ∧ 16 < { start with sp := 17 }.sp.toNat := by decide

theorem test_hyps_callThenRetRestoresPc : 0x200 ≤ (0xFFF#12).toNat ∧ { start with sp := 15 }.sp.toNat < 16 := by decide

/-- Destination not VF, in ADD Vx, Vy, SUB, SUBN, SHR and SHL: each has the hypothesis `x ≠ 0xF`. -/
theorem test_hyps_flag_instructions : (0x0#4 : Nibble) ≠ 0xF#4 ∧ (0xE#4 : Nibble) ≠ 0xF#4 := by decide

theorem test_hyps_shiftsUnderEveryParameter :
    ((0x03 : Byte) = match Config.ShiftSource.fromVy with
      | .inPlace => (withRegs [(2, 0x03)] start).reg 0x1
      | .fromVy => (withRegs [(2, 0x03)] start).reg 0x2) ∧ (0x1#4 : Nibble) ≠ 0xF#4 := by decide

theorem test_hyps_fontAddress :
    ((withRegs [(0, 15)] start).reg 0x0).toNat ≤ 15 ∧ 15 < ((withRegs [(0, 16)] start).reg 0x0).toNat := by decide

/-- First and last base allowed, and the first on either side of them. -/
theorem test_hyps_bcdStore :
    (0x200 ≤ { start with i := 0x200 }.i.toNat ∧ { start with i := 0x200 }.i.toNat + 3 < 4096) ∧
    (0x200 ≤ { start with i := 0xFFC }.i.toNat ∧ { start with i := 0xFFC }.i.toNat + 3 < 4096) ∧
    { start with i := 0x1FF }.i.toNat < 0x200 ∧ 4096 ≤ { start with i := 0xFFD }.i.toNat + 3 := by decide

/-- The same for LD [I], Vx and LD Vx, [I], with x = 0xF. -/
theorem test_hyps_blockStore_blockLoad :
    (0x200 ≤ { start with i := 0xFEF }.i.toNat ∧ { start with i := 0xFEF }.i.toNat + ((0xF#4).toNat + 1) < 4096) ∧
    (0x0#4 ≤ 0xF#4 ∧ 0xF#4 ≤ 0xF#4 ∧ ¬ 0xF#4 ≤ 0x0#4) ∧
    { start with i := 0x1FF }.i.toNat < 0x200 ∧ 4096 ≤ { start with i := 0xFF0 }.i.toNat + ((0xF#4).toNat + 1) := by decide

/-- The bounds, and a state to load back from: the state after the store with I back. -/
theorem test_hyps_storeThenLoadBack :
    (0x200 ≤ { start with i := 0x300 }.i.toNat ∧ { start with i := 0x300 }.i.toNat + ((0x1#4).toNat + 1) < 4096) ∧
    ∃ t, exec (.ldStore 0x1) { start with i := 0x300 } = .next t ∧
      { t with i := 0x300 }.i = { start with i := 0x300 }.i ∧
      ∀ a, Memory.read { t with i := 0x300 }.mem a = Memory.read t.mem a :=
  ⟨by decide, _, rfl, rfl, fun _ => rfl⟩

theorem test_hyps_storedWordIsFetched :
    1 ≤ (0x1#4).toNat ∧ 0x200 ≤ { start with i := 0x300 }.i.toNat ∧
    { start with i := 0x300 }.i.toNat + ((0x1#4).toNat + 1) < 4096 := by decide

/-- The state of V-DISP-10: one pixel lit, a sprite row 0xC0 at 0x300. -/
def litCorner : State := withBytes 0x300 [0xC0] { start with i := 0x300, disp := start.disp.toggle 0 0 }

/-- The last sprite inside memory and the first outside; a covered and an uncovered pixel; a covered pixel that is lit,
and a display with none. -/
theorem test_hyps_drawFlipsCoveredPixels :
    ({ start with i := 0xFFF }.i.toNat + (0x1#4).toNat ≤ 4096) ∧ (4096 < { start with i := 0xFFF }.i.toNat + (0x2#4).toNat) ∧
    (SpriteCovers litCorner.mem 0x300 (litCorner.reg 0x0) (litCorner.reg 0x1) 1 0 0 ∧ litCorner.disp.get 0 0 = true) ∧
    ¬ SpriteCovers litCorner.mem 0x300 (litCorner.reg 0x0) (litCorner.reg 0x1) 1 1 0 ∧
    ∀ row col, start.disp.get row col = false := by
  refine ⟨by decide, by decide, ⟨⟨0, by decide, 0, by decide, by decide, by decide, by decide⟩, by decide⟩, ?_, ?_⟩
  · rintro ⟨r, hr, j, _, h, _⟩
    have : r = 0 := by omega
    subst this
    revert h; decide
  · intro row col; simp [start, State.reset, Display.get]

theorem test_hyps_drawTwiceRestoresDisplay :
    (0x0#4 : Nibble) ≠ 0xF#4 ∧ (0x1#4 : Nibble) ≠ 0xF#4 ∧ litCorner.i.toNat + (0x1#4).toNat ≤ 4096 ∧
    ∀ row col, start.disp.get row col = false := by
  refine ⟨by decide, by decide, by decide, ?_⟩
  intro row col; simp [start, State.reset, Display.get]

/-- One pixel lit and a sprite of that one pixel. -/
def litSprite : State := withBytes 0x300 [0x80] { start with i := 0x300, disp := start.disp.toggle 0 0 }

theorem test_hyps_secondDrawFlagsEverySetSprite :
    ∃ t u, (0x0#4 : Nibble) ≠ 0xF#4 ∧ (0x1#4 : Nibble) ≠ 0xF#4 ∧ exec (.drw 0x0 0x1 0x1) litSprite = .next t ∧
      t.fault = none ∧ exec (.drw 0x0 0x1 0x1) t = .next u :=
  ⟨_, _, by decide, by decide, rfl, rfl, rfl⟩

theorem test_hyps_skipsOnKeys :
    ((withRegs [(0, 15)] start).reg 0x0).toNat = (0xF#4).toNat ∧
    15 < ((withRegs [(0, 16)] start).reg 0x0).toNat := by decide

theorem test_hyps_waitForKey : { start with pend := some 0xA }.pend = some 0xA#4 ∧ start.pend = none := by decide

theorem test_hyps_keyReachesRegisterOneCycleLater :
    HostMayCycle 0 (ready 0x200 0xF50A) ∧ (0 : Rat) ≤ 0 ∧ (ready 0x200 0xF50A).wait = false ∧
    (ready 0x200 0xF50A).pend = none ∧ (ready 0x200 0xF50A).pc.toNat + 1 ≤ 0xFFF ∧
    decode (wordAtPc (ready 0x200 0xF50A)) = .ok (.ldVxK 0x5) :=
  ⟨mayCycle_start _ rfl rfl, le_refl 0, by decide⟩

theorem test_hyps_onlyFlagInstructionsWriteVf :
    exec (.ldByte 0x1 0x07) start = .next (start.setReg 0x1 0x07) ∧ producesFlag (.ldByte 0x1 0x07) = false ∧
    destinationVf (.ldByte 0x1 0x07) = false := ⟨rfl, rfl, rfl⟩

theorem test_hyps_onlyClsAndDrwWriteDisplay :
    (exec (.ldI 0x300) start = .next { start with i := 0x300 } ∧ (Instr.ldI 0x300) ≠ .cls ∧
      ∀ x y n, (Instr.ldI 0x300) ≠ .drw x y n) ∧
    (perform (.keyUp 3) start = .next start ∧ HostOp.keyUp 3 ≠ .reset ∧ ∀ d, HostOp.keyUp 3 ≠ .executeCycle d) :=
  ⟨⟨rfl, by simp, by simp⟩, rfl, by simp, by simp⟩

/-- An instruction; LD Vx, K; a key event that changes KEYS. -/
theorem test_hyps_keysBelongToKeyEvents :
    exec (.ldI 0x300) start = .next { start with i := 0x300 } ∧
    exec (.ldVxK 0x5) start = .next { start.rewind with wait := true } ∧
    perform (.keyDown 3) start = .next (start.setKey 3 true) ∧ (start.setKey 3 true).keys ≠ start.keys :=
  ⟨rfl, rfl, rfl, by decide⟩

/-- WAIT set, PEND consumed; WAIT cleared and PEND set by a key-down; WAIT set by a cycle; PEND cleared by a cycle. -/
theorem test_hyps_waitAndPendTransitions :
    (exec (.ldVxK 0x5) start = .next { start.rewind with wait := true } ∧ true ≠ start.wait) ∧
    (exec (.ldVxK 0x5) { start with pend := some 7 } = .next (start.setReg 0x5 0x07) ∧
      start.pend ≠ { start with pend := some 7 }.pend) ∧
    perform (.keyDown 7) { start with wait := true } = .next { start.setKey 7 true with pend := some 7 } ∧
    perform (.executeCycle 0) (ready 0x200 0xF50A) = .next { ready 0x200 0xF50A with wait := true } ∧
    perform (.executeCycle 0) { ready 0x200 0xF50A with pend := some 7 } =
      .next { (ready 0x200 0xF50A).setReg 0x5 0x07 with pc := 0x202 } :=
  ⟨⟨rfl, by decide⟩, ⟨rfl, by decide⟩, rfl, rfl, rfl⟩

theorem test_hyps_instructionsWriteOnlyTheirState :
    exec (.seReg 0x1 0x1) start = .next start.advance ∧ writesIndex (.seReg 0x1 0x1) = false ∧
    writesMemory (.seReg 0x1 0x1) = false ∧ accessesStack (.seReg 0x1 0x1) = false ∧
    (∀ x, (Instr.seReg 0x1 0x1) ≠ .ldDt x) ∧ ∀ x, (Instr.seReg 0x1 0x1) ≠ .ldSt x :=
  ⟨rfl, rfl, rfl, rfl, by simp, by simp⟩

/-- A store, and the address just below the program area. -/
theorem test_hyps_lowMemoryNeverWritten :
    exec (.ldStore 0x0) { counting with i := 0x200 } =
      .next { counting with i := 0x201, mem := Memory.writeBytes counting.mem 0x200 [0x00] } ∧ 0x1FF < 0x200 :=
  ⟨rfl, by decide⟩

theorem test_hyps_errorsArePreciseAndListed :
    exec (.jp 0x100) start = .next (start.raised (.invalidAddress 0x100)) ∧ start.fault = none ∧
    (start.raised (.invalidAddress 0x100)).fault = some (.invalidAddress 0x100) := ⟨rfl, rfl, rfl⟩

theorem test_hyps_everyInstructionAnswers : { start with sp := 16 }.sp.toNat ≤ 16 := by decide

theorem test_hyps_memoryFormKeptByEveryStep :
    Memory.wf (ready 0x200 0xF055).mem = true ∧
    nextIs (step { ready 0x200 0xF055 with i := 0x300, v := start.v.set 0 9 }) (fun t => t.mem != (ready 0x200 0xF055).mem)
      = true := by decide

/-- The invariant of a state in mid-run (one CALL deep, at the CALL's target) whose step answers a next state. -/
theorem test_hyps_invariantKeptByEveryStep :
    Inv { start with sp := 1, stack := start.stack.set 0 0x202, pc := 0x300 } ∧
    nextIs (step { start with sp := 1, stack := start.stack.set 0 0x202, pc := 0x300 }) (fun _ => true) = true := by
  refine ⟨⟨by decide, by simp [start, State.reset], by decide, by decide, by decide, fun a _ => rfl, rfl, ?_⟩, by decide⟩
  simp [start, State.reset]

end Sys2Proof.Tests
end

section
/-! WAIT and PEND across the host's operations (10_state.md R31, R32; 45_cycle_orchestrator.md R186). -/

namespace Sys2Proof.Machine

/-! ### What each host operation can answer -/

/-- A load that answers a next state met LOADED = false and placed the program, or returned the LoadError (R190). -/
theorem loadProgram_next {p : List Byte} {s t : State} (h : loadProgram p s = .next t) :
    s.loaded = false ∧
      ((3584 < p.length ∧ t = s.emit (.error (.programTooLarge p.length))) ∨
       (p.length ≤ 3584 ∧ t = { s with mem := Memory.writeBytes s.mem 0x200 p, loaded := true })) := by
  unfold loadProgram at h
  split at h
  · cases h
  next hl =>
    refine ⟨by simpa using hl, ?_⟩
    split at h <;> cases h
    next hp => exact .inl ⟨hp, rfl⟩
    next hp => exact .inr ⟨not_lt.mp hp, rfl⟩

/-- A key-down that answers a next state names one of the 16 keys, sets it and makes the capture (R186). -/
theorem keyDown_next {k : Nat} {s t : State} (h : keyDown k s = .next t) :
    ∃ q : Nibble, k = q.toNat ∧ t = (s.setKey q true).capture q := by
  unfold keyDown at h
  split at h <;> cases h
  next hk => exact ⟨BitVec.ofNat 4 k, (Nat.mod_eq_of_lt hk).symm, rfl⟩

/-- A key-up that answers a next state names one of the 16 keys and clears it (R187). -/
theorem keyUp_next {k : Nat} {s t : State} (h : keyUp k s = .next t) :
    ∃ q : Nibble, k = q.toNat ∧ t = s.setKey q false := by
  unfold keyUp at h
  split at h <;> cases h
  next hk => exact ⟨BitVec.ofNat 4 k, (Nat.mod_eq_of_lt hk).symm, rfl⟩

theorem keyDown_eq (s : State) (k : Nibble) : keyDown k.toNat s = .next ((s.setKey k true).capture k) := by
  simp [keyDown, k.isLt]

/-- Everything the capture does (R186). -/
theorem capture_cases (s : State) (k : Nibble) :
    (s.wait = true ∧ s.pend = none ∧ s.capture k = { s with pend := some k, wait := false }) ∨
    (¬ (s.wait = true ∧ s.pend = none) ∧ s.capture k = s) := by
  unfold State.capture
  by_cases hc : s.wait = true ∧ s.pend = none
  · exact .inl ⟨hc.1, hc.2, if_pos hc⟩
  · exact .inr ⟨hc, if_neg hc⟩

/-! ### WAIT and PEND -/

/-- The key wait is untouched: WAIT and PEND keep their values (R31, R32). -/
def SameKeyWait (s t : State) : Prop := t.wait = s.wait ∧ t.pend = s.pend

/-- An instruction leaves WAIT and PEND alone, or is an LD Vx, K that takes the pending key or begins to wait (R168). -/
theorem exec_keyWait {i : Instr} {s t : State} (h : exec i s = .next t) :
    SameKeyWait s t ∨
    (∃ x k, i = .ldVxK x ∧ s.pend = some k ∧ t = { s.setReg x (k.setWidth 8) with pend := none }) ∨
    (∃ x, i = .ldVxK x ∧ s.pend = none ∧ t = { s.rewind with wait := true }) := by
  cases exec_effect h
  case keyTaken x k hk => exact .inr (.inl ⟨x, k, rfl, hk, rfl⟩)
  case keyAwaited x hk => exact .inr (.inr ⟨x, rfl, hk, rfl⟩)
  all_goals exact .inl (by constructor <;> simp)

/-- WAIT is not cleared and PEND is not set: the bound on what an instruction or a cycle does to them. -/
def KeyWaitOnward (s t : State) : Prop := (t.wait = s.wait ∨ t.wait = true) ∧ (t.pend = s.pend ∨ t.pend = none)

theorem SameKeyWait.onward {s t : State} (h : SameKeyWait s t) : KeyWaitOnward s t := ⟨.inl h.1, .inl h.2⟩

theorem exec_keyWaitOnward {i : Instr} {s t : State} (h : exec i s = .next t) : KeyWaitOnward s t := by
  rcases exec_keyWait h with hs | ⟨x, k, _, _, rfl⟩ | ⟨x, _, _, rfl⟩
  · exact hs.onward
  · exact ⟨.inl rfl, .inr rfl⟩
  · exact ⟨.inr rfl, .inl rfl⟩

theorem cycleBody_keyWaitOnward {s u : State} (h : s.cycleBody = .next u) : KeyWaitOnward s u := by
  rcases cycleBody_next h with ⟨_, rfl⟩ | ⟨_, _, i, hi⟩ | ⟨_, _, e, rfl⟩ | ⟨_, _, e, rfl⟩
  · exact ⟨.inl rfl, .inl rfl⟩
  · exact exec_keyWaitOnward (s := s.advance) hi
  · exact ⟨.inl rfl, .inl rfl⟩
  · exact ⟨.inl rfl, .inl rfl⟩

/-- The ticks before a cycle's body and the tone check after it leave the key wait alone. -/
theorem executeCycle_keyWaitOnward {delta : Rat} {s t : State} (h : executeCycle delta s = .next t) :
    KeyWaitOnward s t := by
  obtain ⟨_, _, _, u, hu, rfl⟩ := executeCycle_next h
  have hb : KeyWaitOnward s u := cycleBody_keyWaitOnward (s := s.tickTimers delta) hu
  split
  · simpa [KeyWaitOnward] using hb
  · exact hb

/-- Everything a host operation can do to WAIT and PEND: nothing, a reset, a cycle within its bound, or a capture. -/
theorem perform_keyWait {op : HostOp} {s t : State} (h : perform op s = .next t) :
    SameKeyWait s t ∨
    (op = .reset ∧ t.wait = false ∧ t.pend = none) ∨
    (∃ d, op = .executeCycle d ∧ KeyWaitOnward s t) ∨
    (∃ k : Nibble, op = .keyDown k.toNat ∧ s.wait = true ∧ s.pend = none ∧ t.wait = false ∧ t.pend = some k) := by
  cases op with
  | load p =>
    obtain ⟨_, ⟨_, rfl⟩ | ⟨_, rfl⟩⟩ := loadProgram_next h
    · exact .inl ⟨rfl, rfl⟩
    · exact .inl ⟨rfl, rfl⟩
  | reset => cases h; exact .inr (.inl ⟨rfl, rfl, rfl⟩)
  | executeCycle d => exact .inr (.inr (.inl ⟨d, rfl, executeCycle_keyWaitOnward h⟩))
  | keyDown k =>
    obtain ⟨q, rfl, rfl⟩ := keyDown_next h
    rcases capture_cases (s.setKey q true) q with ⟨hw, hp, e⟩ | ⟨_, e⟩ <;> rw [e]
    · exact .inr (.inr (.inr ⟨q, rfl, hw, hp, rfl, rfl⟩))
    · exact .inl ⟨rfl, rfl⟩
  | keyUp k =>
    obtain ⟨q, rfl, rfl⟩ := keyUp_next h
    exact .inl ⟨rfl, rfl⟩

/-! ### The clauses of R31 and R32 -/

theorem exec_sets_wait {i : Instr} {s t : State} (h : exec i s = .next t) (hw : t.wait ≠ s.wait) :
    t.wait = true ∧ ∃ x, i = .ldVxK x := by
  rcases exec_keyWait h with hs | ⟨x, k, _, _, rfl⟩ | ⟨x, hi, _, rfl⟩
  · exact absurd hs.1 hw
  · exact absurd rfl hw
  · exact ⟨rfl, x, hi⟩

theorem exec_takes_pend {i : Instr} {s t : State} (h : exec i s = .next t) (hp : t.pend ≠ s.pend) :
    t.pend = none ∧ ∃ x k, i = .ldVxK x ∧ s.pend = some k ∧ (t.reg x).toNat = k.toNat := by
  rcases exec_keyWait h with hs | ⟨x, k, hi, hk, rfl⟩ | ⟨x, _, _, rfl⟩
  · exact absurd hs.2 hp
  · have hreg : (s.setReg x (k.setWidth 8)).reg x = k.setWidth 8 := s.reg_setReg_same x _
    have hwide : (k.setWidth 8).toNat = k.toNat := BitVec.toNat_setWidth_of_le (by decide)
    exact ⟨rfl, x, k, hi, hk, (congrArg BitVec.toNat hreg).trans hwide⟩
  · exact absurd rfl hp

theorem perform_clears_wait {op : HostOp} {s t : State} (h : perform op s = .next t) (hs : s.wait = true)
    (ht : t.wait = false) :
    op = .reset ∨ ∃ k : Nibble, op = .keyDown k.toNat ∧ s.pend = none ∧ t.pend = some k := by
  rcases perform_keyWait h with hk | ⟨hr, _⟩ | ⟨d, _, hw, _⟩ | ⟨k, hop, _, hp, _, ht'⟩
  · simp [hk.1, hs] at ht
  · exact .inl hr
  · simp [ht, hs] at hw
  · exact .inr ⟨k, hop, hp, ht'⟩

theorem perform_sets_wait {op : HostOp} {s t : State} (h : perform op s = .next t) (hs : s.wait = false)
    (ht : t.wait = true) : ∃ d, op = .executeCycle d := by
  rcases perform_keyWait h with hk | ⟨_, hw, _⟩ | ⟨d, hop, _⟩ | ⟨k, _, hw, _⟩
  · simp [hk.1, hs] at ht
  · simp [hw] at ht
  · exact ⟨d, hop⟩
  · simp [hw] at hs

theorem perform_sets_pend {op : HostOp} {s t : State} (h : perform op s = .next t) {k : Nibble}
    (ht : t.pend = some k) (hs : s.pend ≠ some k) : op = .keyDown k.toNat ∧ s.wait = true ∧ s.pend = none := by
  rcases perform_keyWait h with hk | ⟨_, _, hp⟩ | ⟨d, _, _, hp⟩ | ⟨q, hop, hw, hp, _, hq⟩
  · exact absurd (hk.2 ▸ ht) hs
  · simp [hp] at ht
  · rcases hp with hp | hp
    · exact absurd (hp ▸ ht) hs
    · simp [hp] at ht
  · obtain rfl : q = k := Option.some.inj (hq.symm.trans ht)
    exact ⟨hop, hw, hp⟩

theorem perform_clears_pend {op : HostOp} {s t : State} (h : perform op s = .next t) (hs : s.pend ≠ none)
    (ht : t.pend = none) : op = .reset ∨ ∃ d, op = .executeCycle d := by
  rcases perform_keyWait h with hk | ⟨hr, _⟩ | ⟨d, hop, _⟩ | ⟨k, _, _, hp, _⟩
  · exact absurd (hk.2 ▸ ht) hs
  · exact .inl hr
  · exact .inr ⟨d, hop⟩
  · exact absurd hp hs

/-- A key-down that meets WAIT with nothing pending captures its key (R186). -/
theorem keyDown_captures {s : State} (k : Nibble) (hw : s.wait = true) (hp : s.pend = none) :
    perform (.keyDown k.toNat) s = .next { s.setKey k true with pend := some k, wait := false } := by
  have hc : (s.setKey k true).capture k = { s.setKey k true with pend := some k, wait := false } := if_pos ⟨hw, hp⟩
  exact (keyDown_eq s k).trans (congrArg _ hc)

/-- Settles O49: the inversions of `exec` and `perform` on WAIT and PEND, clause by clause. -/
theorem waitAndPendTransitions : Obligations.WaitAndPendTransitions :=
  ⟨fun _ _ _ h => ⟨exec_sets_wait h, exec_takes_pend h⟩,
   fun _ _ _ h => ⟨perform_clears_wait h, perform_sets_wait h, fun _ => perform_sets_pend h, perform_clears_pend h⟩,
   fun _ k hw hp => ⟨_, keyDown_captures k hw hp, rfl, rfl⟩,
   fun _ => ⟨_, rfl, rfl, rfl⟩⟩

end Sys2Proof.Machine
end

section
/-! SYS and the compare-and-skip instructions (41_control_flow.md R100, R105 to R108): the PC after a skip, for each
polarity of the comparison, and O18. -/
namespace Sys2Proof.Machine

open Sys2Proof.Safety

/-! ### The PC after a skip on a comparison -/

theorem skipIf_beq_pc (s : State) (a b : Byte) :
    (s.skipIf (a == b)).pc = if a = b then s.pc + 2#16 else s.pc := by
  simp [State.skipIf_pc]

theorem skipIf_bne_pc (s : State) (a b : Byte) :
    (s.skipIf (a != b)).pc = if a = b then s.pc else s.pc + 2#16 := by
  rw [State.skipIf_pc]
  by_cases h : a = b <;> simp [h]

/-! ### The skip instructions (R105 to R108) -/

/-- What SE does, whatever the two bytes compared are. -/
theorem exec_skipIfEq {i : Instr} {s : State} {a b : Byte} (h : exec i s = .next (s.skipIf (a == b))) :
    ∃ t, exec i s = .next t ∧ t.pc = (if a = b then s.pc + 2#16 else s.pc) ∧ UnchangedBut [.pc] s t :=
  ⟨_, h, skipIf_beq_pc s a b, unchangedBut_skipIf s _⟩

/-- What SNE does, whatever the two bytes compared are. -/
theorem exec_skipIfNe {i : Instr} {s : State} {a b : Byte} (h : exec i s = .next (s.skipIf (a != b))) :
    ∃ t, exec i s = .next t ∧ t.pc = (if a = b then s.pc else s.pc + 2#16) ∧ UnchangedBut [.pc] s t :=
  ⟨_, h, skipIf_bne_pc s a b, unchangedBut_skipIf s _⟩

theorem exec_sys (nnn : Addr12) (s : State) : exec (.sys nnn) s = .next s := rfl

theorem exec_seByte (x : Nibble) (nn : Byte) (s : State) :
    exec (.seByte x nn) s = .next (s.skipIf (s.reg x == nn)) := rfl

theorem exec_sneByte (x : Nibble) (nn : Byte) (s : State) :
    exec (.sneByte x nn) s = .next (s.skipIf (s.reg x != nn)) := rfl

theorem exec_seReg (x y : Nibble) (s : State) :
    exec (.seReg x y) s = .next (s.skipIf (s.reg x == s.reg y)) := rfl

theorem exec_sneReg (x y : Nibble) (s : State) :
    exec (.sneReg x y) s = .next (s.skipIf (s.reg x != s.reg y)) := rfl

/-- Settles O18: SYS answers its own state, and each skip instruction is a `skipIf` on its comparison. -/
theorem sysAndSkips : Obligations.SysAndSkips := fun s nnn x y nn =>
  ⟨⟨s, exec_sys nnn s, unchangedBut_refl [] s⟩,
   exec_skipIfEq (exec_seByte x nn s),
   exec_skipIfNe (exec_sneByte x nn s),
   exec_skipIfEq (exec_seReg x y s),
   exec_skipIfNe (exec_sneReg x y s)⟩

end Sys2Proof.Machine
end

section
/-! The instructions that write one register and no flag: the loads, the logic, ADD Vx, nn and RND (42_alu.md R122 to
R127, R133). Each is a `setReg`; its frame is proved once. O23, O24, O30. -/
namespace Sys2Proof.Machine

open Sys2Proof.Safety

/-! ### The frame of one register write -/

theorem regsUnchangedBut_setReg (s : State) (x : Nibble) (b : Byte) : RegsUnchangedBut [x] s (s.setReg x b) :=
  fun _ hr => s.reg_setReg_other (List.ne_of_not_mem_cons hr) b

theorem writesOnlyReg_setReg (s : State) (x : Nibble) (b : Byte) : WritesOnlyReg x b s (s.setReg x b) :=
  ⟨s.reg_setReg_same x b, regsUnchangedBut_setReg s x b, unchangedBut_setReg s x b⟩

/-- An instruction that answers a register write writes that register and nothing else. -/
theorem exec_writesOnlyReg {i : Instr} {s : State} {x : Nibble} {b : Byte} (h : exec i s = .next (s.setReg x b)) :
    ∃ t, exec i s = .next t ∧ WritesOnlyReg x b s t :=
  ⟨_, h, writesOnlyReg_setReg s x b⟩

theorem unchangedBut_draws (s : State) (n : Nat) : UnchangedBut [.draws] s { s with draws := n } := by
  intro p hp; cases p <;> simp_all [Part.same, State.reg]

/-! ### The loads and the logic (R122, R123, R125 to R127) -/

theorem exec_ldByte (x : Nibble) (nn : Byte) (s : State) : exec (.ldByte x nn) s = .next (s.setReg x nn) := rfl

theorem exec_ldReg (x y : Nibble) (s : State) : exec (.ldReg x y) s = .next (s.setReg x (s.reg y)) := rfl

theorem exec_orReg (x y : Nibble) (s : State) :
    exec (.orReg x y) s = .next (s.setReg x (s.reg x ||| s.reg y)) := rfl

theorem exec_andReg (x y : Nibble) (s : State) :
    exec (.andReg x y) s = .next (s.setReg x (s.reg x &&& s.reg y)) := rfl

theorem exec_xorReg (x y : Nibble) (s : State) :
    exec (.xorReg x y) s = .next (s.setReg x (s.reg x ^^^ s.reg y)) := rfl

/-- Settles O23: each instruction answers `setReg` of its result, whose frame is that of one register write. -/
theorem loadsAndLogicWriteOneRegister : Obligations.LoadsAndLogicWriteOneRegister := fun s x y nn =>
  ⟨exec_writesOnlyReg (exec_ldByte x nn s),
   exec_writesOnlyReg (exec_ldReg x y s),
   exec_writesOnlyReg (exec_orReg x y s),
   exec_writesOnlyReg (exec_andReg x y s),
   exec_writesOnlyReg (exec_xorReg x y s)⟩

/-! ### ADD Vx, nn (R124) -/

theorem exec_addByte (x : Nibble) (nn : Byte) (s : State) :
    exec (.addByte x nn) s = .next (s.setReg x (addWrap (s.reg x) nn)) := rfl

/-- Settles O24: a single register write of `addWrap`, which is the sum modulo 256. -/
theorem addByteWrapsWithoutFlag : Obligations.AddByteWrapsWithoutFlag := fun s x nn => by
  obtain ⟨t, hexec, hreg, hregs, hrest⟩ := exec_writesOnlyReg (exec_addByte x nn s)
  have hsum : (t.reg x).toNat = ((s.reg x).toNat + nn.toNat) % 256 := by rw [hreg, addWrap_toNat]
  exact ⟨t, hexec, hsum, hregs, hrest⟩

/-! ### RND Vx, nn (R133) -/

theorem exec_rnd (x : Nibble) (nn : Byte) (s : State) :
    exec (.rnd x nn) s = .next { s.setReg x (Config.randomByte s.draws &&& nn) with draws := s.draws + 1 } := rfl

/-- A masked byte has no bit outside its mask. -/
theorem masked_and_not_mask (b m : Byte) : b &&& m &&& ~~~m = 0 := by
  rw [BitVec.and_assoc, BitVec.and_not_self]; exact BitVec.and_zero

/-- Settles O30: one register write of a masked byte, after which only the counter of draws moves on. -/
theorem randomIsMasked : Obligations.RandomIsMasked := fun s x nn => by
  obtain ⟨hreg, hregs, hrest⟩ := writesOnlyReg_setReg s x (Config.randomByte s.draws &&& nn)
  have hdraws := unchangedBut_draws (s.setReg x (Config.randomByte s.draws &&& nn)) (s.draws + 1)
  refine ⟨_, exec_rnd x nn s, ⟨_, hreg⟩, ?_, hregs, ?_⟩
  · exact (congrArg (· &&& ~~~nn) hreg).trans (masked_and_not_mask _ nn)
  · exact unchangedBut_trans (unchangedBut_mono hrest (by simp)) (unchangedBut_mono hdraws (by simp))

end Sys2Proof.Machine
end

section
/-! LD I, nnn and ADD I, Vx (43_index_memory.md R140, R141): each writes the index register and nothing else, VF
included. O31. -/
namespace Sys2Proof.Machine

open Sys2Proof.Safety

/-! ### The frame of one write of I -/

theorem unchangedBut_index (s : State) (w : Word) : UnchangedBut [.index] s { s with i := w } := by
  intro p hp; cases p <;> simp_all [Part.same, State.reg]

/-- An instruction that answers a write of I sets I to that word and leaves every other part as it was. -/
theorem exec_writesOnlyIndex {i : Instr} {s : State} {w : Word} {n : Nat} (h : exec i s = .next { s with i := w })
    (hw : w.toNat = n) : ∃ t, exec i s = .next t ∧ t.i.toNat = n ∧ UnchangedBut [.index] s t :=
  ⟨_, h, hw, unchangedBut_index s w⟩

/-! ### LD I, nnn (R140) and ADD I, Vx (R141) -/

theorem exec_ldI (nnn : Addr12) (s : State) :
    exec (.ldI nnn) s = .next { s with i := BitVec.ofNat 16 (addrOf nnn) } := rfl

theorem exec_addI (x : Nibble) (s : State) :
    exec (.addI x) s = .next { s with i := s.i + (s.reg x).setWidth 16 } := rfl

/-- A 12-bit address fits in a word, so `zext_16(nnn)` loses no bit (R81). -/
theorem wordOf_addrOf_toNat (nnn : Addr12) : (BitVec.ofNat 16 (addrOf nnn)).toNat = nnn.toNat :=
  Nat.mod_eq_of_lt (Nat.lt_trans nnn.isLt (by decide))

/-- A word plus a zero-extended byte is their sum modulo 2^16. -/
theorem word_add_byte_toNat (w : Word) (b : Byte) : (w + b.setWidth 16).toNat = (w.toNat + b.toNat) % 65536 := by
  have hb : (b.setWidth 16).toNat = b.toNat := BitVec.toNat_setWidth_of_le (by decide)
  rw [BitVec.toNat_add, hb]

/-- Settles O31: each instruction answers one write of I, whose value is its operand or the sum modulo 2^16. -/
theorem indexLoadAndAdd : Obligations.IndexLoadAndAdd := fun s nnn x =>
  ⟨exec_writesOnlyIndex (exec_ldI nnn s) (wordOf_addrOf_toNat nnn),
   exec_writesOnlyIndex (exec_addI x s) (word_add_byte_toNat s.i (s.reg x))⟩

end Sys2Proof.Machine
end

section
/-! CLS, the timer instructions and LD Vx, K (44_display_keys_timers.md R160, R165 to R168): the frame of each write of
DISP, DT, ST and PEND and of the rewind that starts a wait. O38, O43, O44. -/
namespace Sys2Proof.Machine

open Sys2Proof.Safety

/-! ### The frames of the single writes -/

theorem unchangedBut_display (s : State) (d : Display) : UnchangedBut [.display] s { s with disp := d } := by
  intro p hp; cases p <;> simp_all [Part.same, State.reg]

theorem unchangedBut_delayTimer (s : State) (b : Byte) : UnchangedBut [.delayTimer] s { s with dt := b } := by
  intro p hp; cases p <;> simp_all [Part.same, State.reg]

theorem unchangedBut_soundTimer (s : State) (b : Byte) : UnchangedBut [.soundTimer] s { s with st := b } := by
  intro p hp; cases p <;> simp_all [Part.same, State.reg]

theorem unchangedBut_pending (s : State) (k : Option Nibble) : UnchangedBut [.pending] s { s with pend := k } := by
  intro p hp; cases p <;> simp_all [Part.same, State.reg]

theorem unchangedBut_rewindWaiting (s : State) (w : Bool) :
    UnchangedBut [.pc, .waiting] s { s.rewind with wait := w } := by
  intro p hp; cases p <;> simp_all [Part.same, State.reg]

/-! ### CLS (R160) -/

theorem exec_cls (s : State) : exec .cls s = .next { s with disp := Display.clear } := rfl

/-- Settles O38: CLS answers one write of DISP, the clear display, whose every pixel is off. -/
theorem clearDisplay : Obligations.ClearDisplay := fun s =>
  ⟨_, exec_cls s, Display.get_clear, unchangedBut_display s Display.clear⟩

/-! ### The timers (R165 to R167) -/

theorem exec_ldVxDt (x : Nibble) (s : State) : exec (.ldVxDt x) s = .next (s.setReg x s.dt) := rfl

theorem exec_ldDt (x : Nibble) (s : State) : exec (.ldDt x) s = .next { s with dt := s.reg x } := rfl

theorem exec_ldSt (x : Nibble) (s : State) : exec (.ldSt x) s = .next { s with st := s.reg x } := rfl

/-- Settles O43: one register write, one write of DT and one write of ST, each with its own frame. -/
theorem timerInstructions : Obligations.TimerInstructions := fun s x =>
  ⟨exec_writesOnlyReg (exec_ldVxDt x s),
   ⟨_, exec_ldDt x s, rfl, unchangedBut_delayTimer s (s.reg x)⟩,
   ⟨_, exec_ldSt x s, rfl, unchangedBut_soundTimer s (s.reg x)⟩⟩

/-! ### LD Vx, K (R168) -/

theorem exec_ldVxK_of_pend {s : State} {k : Nibble} (h : s.pend = some k) (x : Nibble) :
    exec (.ldVxK x) s = .next { s.setReg x (k.setWidth 8) with pend := none } := by
  change execLdVxK x s = _
  rw [execLdVxK, h]

theorem exec_ldVxK_of_no_pend {s : State} (h : s.pend = none) (x : Nibble) :
    exec (.ldVxK x) s = .next { s.rewind with wait := true } := by
  change execLdVxK x s = _
  rw [execLdVxK, h]

/-- A key value fits in a byte, so widening it loses no bit. -/
theorem byteOf_key_toNat (k : Nibble) : (k.setWidth 8).toNat = k.toNat :=
  BitVec.toNat_setWidth_of_le (by decide)

/-- Consuming a captured key is one register write followed by the clearing of PEND. -/
theorem unchangedBut_consumeKey (s : State) (x : Nibble) (b : Byte) :
    UnchangedBut [.regs, .pending] s { s.setReg x b with pend := none } :=
  unchangedBut_trans (unchangedBut_mono (unchangedBut_setReg s x b) (by simp))
    (unchangedBut_mono (unchangedBut_pending (s.setReg x b) none) (by simp))

/-- Settles O44, by the two values of PEND: a captured key is written to Vx and cleared; without one, PC rewinds and WAIT
is set. -/
theorem waitForKey : Obligations.WaitForKey := fun s x => by
  constructor
  · intro k hk
    obtain ⟨hreg, hregs, -⟩ := writesOnlyReg_setReg s x (k.setWidth 8)
    have hkey := (congrArg BitVec.toNat hreg).trans (byteOf_key_toNat k)
    exact ⟨_, exec_ldVxK_of_pend hk x, hkey, rfl, hregs, unchangedBut_consumeKey s x _⟩
  · intro hnone
    exact ⟨_, exec_ldVxK_of_no_pend hnone x, rfl, rfl, unchangedBut_rewindWaiting s true⟩

end Sys2Proof.Machine
end

section
/-! The key events (45_cycle_orchestrator.md R186, R187): the keys, the key wait and the frame after a key is set and
after a capture. O16. -/
namespace Sys2Proof.Machine

open Sys2Proof.Safety

theorem keyUp_eq (s : State) (k : Nibble) : keyUp k.toNat s = .next (s.setKey k false) := by
  simp [keyUp, k.isLt]

theorem unchangedBut_setKey (s : State) (k : Nibble) (b : Bool) : UnchangedBut [.keys] s (s.setKey k b) := by
  intro p hp; cases p <;> simp_all [Part.same, State.reg]

/-! ### The capture (R186) -/

@[simp] theorem State.capture_key (s : State) (k q : Nibble) : (s.capture k).key q = s.key q := by
  simp [State.key]

theorem capture_of_awaited {s : State} (hw : s.wait = true) (hp : s.pend = none) (k : Nibble) :
    s.capture k = { s with pend := some k, wait := false } := if_pos ⟨hw, hp⟩

theorem capture_of_not_awaited {s : State} (h : s.wait = false ∨ s.pend ≠ none) (k : Nibble) : s.capture k = s := by
  rcases capture_cases s k with ⟨hw, hp, -⟩ | ⟨-, he⟩
  · rcases h with hw' | hp'
    · exact absurd (hw.symm.trans hw') (by decide)
    · exact absurd hp hp'
  · exact he

theorem unchangedBut_capture (s : State) (k : Nibble) : UnchangedBut [.waiting, .pending] s (s.capture k) := by
  intro p hp; cases p <;> simp_all [Part.same, State.reg]

/-- Setting a key and capturing it changes KEYS, WAIT and PEND at most. -/
theorem unchangedBut_setKey_capture (s : State) (k q : Nibble) (b : Bool) :
    UnchangedBut [.keys, .waiting, .pending] s ((s.setKey k b).capture q) :=
  unchangedBut_trans (unchangedBut_mono (unchangedBut_setKey s k b) (by simp))
    (unchangedBut_mono (unchangedBut_capture (s.setKey k b) q) (by simp))

/-! ### key_down and key_up -/

/-- A key-down is captured while waiting with nothing pending; otherwise it leaves WAIT and PEND (R186). -/
theorem setKey_capture_keyWait (s : State) (k : Nibble) (b : Bool) :
    (s.wait = true → s.pend = none →
      ((s.setKey k b).capture k).pend = some k ∧ ((s.setKey k b).capture k).wait = false) ∧
    (s.wait = false ∨ s.pend ≠ none →
      ((s.setKey k b).capture k).pend = s.pend ∧ ((s.setKey k b).capture k).wait = s.wait) := by
  constructor
  · intro hw hp
    rw [capture_of_awaited (s := s.setKey k b) hw hp]
    exact ⟨rfl, rfl⟩
  · intro h
    rw [capture_of_not_awaited (s := s.setKey k b) h]
    exact ⟨rfl, rfl⟩

/-- Settles O16: a key-down sets its key and makes the capture, which leaves KEYS; a key-up only clears its key. -/
theorem keyEvents : Obligations.KeyEvents := fun s k => by
  obtain ⟨hcaptured, hkept⟩ := setKey_capture_keyWait s k true
  constructor
  · have hkeys (q : Nibble) : ((s.setKey k true).capture k).key q = if q = k then true else s.key q :=
      (State.capture_key (s.setKey k true) k q).trans (s.key_setKey k q true)
    exact ⟨_, keyDown_eq s k, hkeys, hcaptured, hkept, unchangedBut_setKey_capture s k k true⟩
  · exact ⟨_, keyUp_eq s k, fun q => s.key_setKey k q false, unchangedBut_setKey s k false⟩

end Sys2Proof.Machine
end

section
/-! The decoder and the encoder (30_encoding.md R80 to R85): what the fields of a packed word are, that a word is packed
from its fields, and the decoder class by class. O1, O2, O3, O4. -/
namespace Sys2Proof

/-! ### The fields of a packed word -/

/-- The high part of two bit vectors side by side. -/
theorem extract_append_high {m n : Nat} (a : BitVec m) (b : BitVec n) : (a ++ b).extractLsb' n m = a := by
  rw [BitVec.extractLsb'_append_eq_of_le (Nat.le_refl n), Nat.sub_self, BitVec.extractLsb'_eq_self]

/-- The low part of two bit vectors side by side. -/
theorem extract_append_low {m n : Nat} (a : BitVec m) (b : BitVec n) : (a ++ b).extractLsb' 0 n = b := by
  rw [BitVec.extractLsb'_append_eq_of_add_le (by omega), BitVec.extractLsb'_eq_self]

@[simp] theorem opField_wordNnn (op : Nibble) (nnn : Addr12) : opField (wordNnn op nnn) = op :=
  extract_append_high op nnn

@[simp] theorem nnnField_wordNnn (op : Nibble) (nnn : Addr12) : nnnField (wordNnn op nnn) = nnn :=
  extract_append_low op nnn

@[simp] theorem opField_wordXnn (op x : Nibble) (nn : Byte) : opField (wordXnn op x nn) = op :=
  (BitVec.extractLsb'_append_eq_of_le (by decide)).trans (extract_append_high op x)

@[simp] theorem xField_wordXnn (op x : Nibble) (nn : Byte) : xField (wordXnn op x nn) = x :=
  (BitVec.extractLsb'_append_eq_of_le (by decide)).trans (extract_append_low op x)

@[simp] theorem nnField_wordXnn (op x : Nibble) (nn : Byte) : nnField (wordXnn op x nn) = nn :=
  extract_append_low (op ++ x) nn

@[simp] theorem opField_wordXyn (op x y n : Nibble) : opField (wordXyn op x y n) = op :=
  (BitVec.extractLsb'_append_eq_of_le (by decide)).trans <|
    (BitVec.extractLsb'_append_eq_of_le (by decide)).trans (extract_append_high op x)

@[simp] theorem xField_wordXyn (op x y n : Nibble) : xField (wordXyn op x y n) = x :=
  (BitVec.extractLsb'_append_eq_of_le (by decide)).trans <|
    (BitVec.extractLsb'_append_eq_of_le (by decide)).trans (extract_append_low op x)

@[simp] theorem yField_wordXyn (op x y n : Nibble) : yField (wordXyn op x y n) = y :=
  (BitVec.extractLsb'_append_eq_of_le (by decide)).trans (extract_append_low (op ++ x) y)

@[simp] theorem nField_wordXyn (op x y n : Nibble) : nField (wordXyn op x y n) = n :=
  extract_append_low (op ++ x ++ y) n

/-! ### A word is packed from its fields -/

theorem wordNnn_fields {w : Word} {op : Nibble} (h : opField w = op) : wordNnn op (nnnField w) = w := by
  subst h
  exact (BitVec.extractLsb'_append_extractLsb'_eq_extractLsb' rfl).trans BitVec.extractLsb'_eq_self

theorem wordXnn_fields {w : Word} {op : Nibble} (h : opField w = op) : wordXnn op (xField w) (nnField w) = w := by
  subst h
  have hop : opField w ++ xField w = w.extractLsb' 8 8 := BitVec.extractLsb'_append_extractLsb'_eq_extractLsb' rfl
  rw [wordXnn, hop]
  exact (BitVec.extractLsb'_append_extractLsb'_eq_extractLsb' rfl).trans BitVec.extractLsb'_eq_self

theorem wordXyn_fields {w : Word} {op : Nibble} (h : opField w = op) :
    wordXyn op (xField w) (yField w) (nField w) = w := by
  subst h
  have hop : opField w ++ xField w = w.extractLsb' 8 8 := BitVec.extractLsb'_append_extractLsb'_eq_extractLsb' rfl
  have hy : w.extractLsb' 8 8 ++ yField w = w.extractLsb' 4 12 :=
    BitVec.extractLsb'_append_extractLsb'_eq_extractLsb' rfl
  rw [wordXyn, hop, hy]
  exact (BitVec.extractLsb'_append_extractLsb'_eq_extractLsb' rfl).trans BitVec.extractLsb'_eq_self

/-! ### Decode of encode -/

/-- Settles O2, class by class: the decoder reads the class, the sub-opcode and the operands back from the packed word. -/
theorem decodeOfEncode : Obligations.DecodeOfEncode := by
  intro i hi
  cases i with
  | sys nnn =>
    simp only [Instr.wellFormed, sysField, Bool.and_eq_true, bne_iff_ne] at hi
    obtain ⟨⟨hzero, hcls⟩, hret⟩ := hi
    simp [encode, decode, decodeClass0, hzero, hcls, hret]
  | cls => rfl
  | ret => rfl
  | ldReg | orReg | andReg | xorReg | addReg | sub | shr | subn | shl => simp [encode, decode, decodeClass8]
  | skp | sknp => simp [encode, decode, decodeClassE]
  | ldVxDt | ldVxK | ldDt | ldSt | addI | ldF | ldB | ldStore | ldLoad => simp [encode, decode, decodeClassF]
  | _ => simp [encode, decode]

/-! ### Encode of decode -/

/-- The class that the decoder's last arm decodes is 0xF: the other fifteen are named before it. -/
theorem class_F_of_not_others : ∀ op : Nibble,
    (op ≠ 0x0#4 ∧ op ≠ 0x1#4 ∧ op ≠ 0x2#4 ∧ op ≠ 0x3#4 ∧ op ≠ 0x4#4 ∧ op ≠ 0x5#4 ∧ op ≠ 0x6#4 ∧ op ≠ 0x7#4 ∧
     op ≠ 0x8#4 ∧ op ≠ 0x9#4 ∧ op ≠ 0xA#4 ∧ op ≠ 0xB#4 ∧ op ≠ 0xC#4 ∧ op ≠ 0xD#4 ∧ op ≠ 0xE#4) → op = 0xF#4 := by
  decide

theorem decodeClass0_ok {nnn : Addr12} {i : Instr} (h : decodeClass0 nnn = .ok i) :
    i.wellFormed = true ∧ encode i = wordNnn 0x0#4 nnn := by
  unfold decodeClass0 at h
  split_ifs at h with hcls hret hzero <;> cases h
  · subst hcls; exact ⟨rfl, rfl⟩
  · subst hret; exact ⟨rfl, rfl⟩
  · exact ⟨by simp [Instr.wellFormed, sysField, hcls, hret, hzero], rfl⟩

theorem decodeClass8_ok {x y n : Nibble} {i : Instr} (h : decodeClass8 x y n = .ok i) :
    i.wellFormed = true ∧ encode i = wordXyn 0x8#4 x y n := by
  unfold decodeClass8 at h
  split at h <;> cases h <;> exact ⟨rfl, rfl⟩

theorem decodeClassE_ok {x : Nibble} {nn : Byte} {i : Instr} (h : decodeClassE x nn = .ok i) :
    i.wellFormed = true ∧ encode i = wordXnn 0xE#4 x nn := by
  unfold decodeClassE at h
  split at h <;> cases h <;> exact ⟨rfl, rfl⟩

theorem decodeClassF_ok {x : Nibble} {nn : Byte} {i : Instr} (h : decodeClassF x nn = .ok i) :
    i.wellFormed = true ∧ encode i = wordXnn 0xF#4 x nn := by
  unfold decodeClassF at h
  split at h <;> cases h <;> exact ⟨rfl, rfl⟩

/-- Settles O3, arm by arm of `decode`, in the order of the classes: the operands are the fields of
the word, which is packed from them. -/
theorem encodeOfDecode : Obligations.EncodeOfDecode := by
  intro w i h
  unfold decode at h
  split at h
  case h_1 hop => exact (decodeClass0_ok h).imp_right (·.trans (wordNnn_fields hop))
  case h_9 hop => exact (decodeClass8_ok h).imp_right (·.trans (wordXyn_fields hop))
  case h_15 hop => exact (decodeClassE_ok h).imp_right (·.trans (wordXnn_fields hop))
  case h_16 =>
    have hop : opField w = 0xF#4 := class_F_of_not_others _ (by simp_all)
    exact (decodeClassF_ok h).imp_right (·.trans (wordXnn_fields hop))
  case h_6 hop | h_10 hop =>
    split at h <;> cases h
    next hn => exact ⟨rfl, (congrArg (wordXyn _ _ _) hn.symm).trans (wordXyn_fields hop)⟩
  case h_14 hop => cases h; exact ⟨rfl, wordXyn_fields hop⟩
  case h_2 hop | h_3 hop | h_11 hop | h_12 hop => cases h; exact ⟨rfl, wordNnn_fields hop⟩
  case h_4 hop | h_5 hop | h_7 hop | h_8 hop | h_13 hop => cases h; exact ⟨rfl, wordXnn_fields hop⟩

/-! ### The undefined words (R84, R85) -/

theorem opField_toNat (w : Word) : (opField w).toNat = w.toNat / 0x1000 := by
  have := w.isLt
  rw [opField, BitVec.extractLsb'_toNat, Nat.shiftRight_eq_div_pow]; omega

theorem nField_toNat (w : Word) : (nField w).toNat = w.toNat % 0x10 := BitVec.extractLsb'_toNat 0 4 w

theorem nnField_toNat (w : Word) : (nnField w).toNat = w.toNat % 0x100 := BitVec.extractLsb'_toNat 0 8 w

theorem decodeClass0_error_iff (nnn : Addr12) : (∃ r, decodeClass0 nnn = .error r) ↔ nnn = 0x000#12 := by
  unfold decodeClass0
  split_ifs <;> simp_all

theorem decodeClass8_error_iff (x y n : Nibble) :
    (∃ r, decodeClass8 x y n = .error r) ↔ n.toNat ∈ [0x8, 0x9, 0xA, 0xB, 0xC, 0xD, 0xF] := by
  unfold decodeClass8
  split
  case h_10 => exact iff_of_true ⟨_, rfl⟩ (by revert n; decide)
  all_goals simp

theorem decodeClassE_error_iff (x : Nibble) (nn : Byte) :
    (∃ r, decodeClassE x nn = .error r) ↔ nn.toNat ∉ [0x9E, 0xA1] := by
  unfold decodeClassE
  split
  case h_3 => exact iff_of_true ⟨_, rfl⟩ (by simp_all [← BitVec.toNat_inj])
  all_goals simp

theorem decodeClassF_error_iff (x : Nibble) (nn : Byte) :
    (∃ r, decodeClassF x nn = .error r) ↔ nn.toNat ∉ [0x07, 0x0A, 0x15, 0x18, 0x1E, 0x29, 0x33, 0x55, 0x65] := by
  unfold decodeClassF
  split
  case h_10 => exact iff_of_true ⟨_, rfl⟩ (by simp_all [← BitVec.toNat_inj])
  all_goals simp

/-- A word of class 5 or 9 is undefined exactly if its condition on `n` fails. -/
theorem ite_error_iff (c : Prop) [Decidable c] (i : Instr) (e : DecodeReject) :
    (∃ r, (if c then Except.ok i else Except.error e) = Except.error r) ↔ ¬ c := by
  by_cases hc : c <;> simp [hc]

/-- A word of class 0 is the zero word exactly if its `nnn` field is zero. -/
theorem eq_zero_iff_nnnField {w : Word} (h : opField w = 0x0#4) : w = 0x0000#16 ↔ nnnField w = 0x000#12 := by
  constructor
  · rintro rfl; rfl
  · intro hnnn; rw [← wordNnn_fields h, hnnn]; rfl

/-- A word of another class than 0 is not the zero word. -/
theorem ne_zero_of_opField {w : Word} {op : Nibble} (h : opField w = op) (hop : op ≠ 0x0#4) : w ≠ 0x0000#16 := by
  rintro rfl; exact hop h.symm

/-- Settles O4, arm by arm of `decode`: the words of each class that are undefined, and none in a class that decodes every
word. -/
theorem undefinedWordsRejected : Obligations.UndefinedWordsRejected := by
  intro w
  simp only [← opField_toNat, ← nField_toNat, ← nnField_toNat]
  unfold decode
  split
  case h_1 h => simp [h, decodeClass0_error_iff, eq_zero_iff_nnnField h]
  case h_6 h | h_10 h => simp [h, ite_error_iff, ne_zero_of_opField h, ← BitVec.toNat_inj]
  case h_9 h => simp [h, decodeClass8_error_iff, ne_zero_of_opField h]
  case h_15 h => simp [h, decodeClassE_error_iff, ne_zero_of_opField h]
  case h_16 =>
    have h : opField w = 0xF#4 := class_F_of_not_others _ (by simp_all)
    simp [h, decodeClassF_error_iff, ne_zero_of_opField h]
  case h_2 h | h_3 h | h_4 h | h_5 h | h_7 h | h_8 h | h_11 h | h_12 h | h_13 h | h_14 h =>
    simp [h, ne_zero_of_opField h]

/-- Settles O1: ten fixed words, by running the decoder. -/
theorem specWordsDecode : Obligations.SpecWordsDecode := by
  unfold Obligations.SpecWordsDecode; decide

end Sys2Proof
end

section
/-! Jumps, calls and returns (41_control_flow.md R101 to R104): the outcome of each under its check, and its frame.
O19, O20, O21, O22. -/
namespace Sys2Proof.Machine

open Sys2Proof.Safety

/-- An outcome that is a `raise` raises. -/
theorem raises_of_eq {e : Error} {s : State} {o : Result} (h : o = raise e s) : Raises e s o := h ▸ raises_raise e s

/-- Two changes one after the other: what either may change, both may. -/
theorem unchangedBut_append {l l' : List Part} {s t u : State} (h : UnchangedBut l s t) (h' : UnchangedBut l' t u) :
    UnchangedBut (l ++ l') s u :=
  unchangedBut_trans (unchangedBut_mono h (List.subset_append_left l l'))
    (unchangedBut_mono h' (List.subset_append_right l l'))

/-! ### JP and JP V0 (R102, R103) -/

/-- A jump to a target of at most 12 bits puts exactly the target in PC. -/
theorem jump_pc_toNat (s : State) {t : Nat} (h : t < 4096) : (s.jump t).pc.toNat = t :=
  Nat.mod_eq_of_lt (by omega)

/-- What a jump with a checked target does, whatever the target is computed from (R60). -/
theorem checkedJump {o : Result} {s : State} {t : Nat}
    (ho : (targetOk t = true ∧ o = .next (s.jump t)) ∨ (targetOk t = false ∧ o = raise (.invalidAddress t) s)) :
    (0x200 ≤ t → t < 4096 → ∃ u, o = .next u ∧ u.pc.toNat = t ∧ UnchangedBut [.pc] s u) ∧
    (t < 0x200 ∨ 4096 ≤ t → Raises (.invalidAddress t) s o) := by
  rcases ho with ⟨hok, rfl⟩ | ⟨hbad, rfl⟩
  · obtain ⟨hlow, hhigh⟩ := (targetOk_iff t).mp hok
    exact ⟨fun _ _ => ⟨_, rfl, jump_pc_toNat s hhigh, unchangedBut_jump s t⟩, fun h => by omega⟩
  · have hnot : ¬ (0x200 ≤ t ∧ t < 0x1000) := by rw [← targetOk_iff, hbad]; decide
    exact ⟨fun hlow hhigh => absurd ⟨hlow, hhigh⟩ hnot, fun _ => raises_raise _ s⟩

/-- Settles O19: both jumps are checked jumps; a 12-bit target is never past memory. -/
theorem jumpsGoToCheckedTargets : Obligations.JumpsGoToCheckedTargets := fun s nnn => by
  obtain ⟨hjp, hjpBad⟩ := checkedJump (execJp_cases nnn s)
  obtain ⟨hjpV0, hjpV0Bad⟩ := checkedJump (execJpV0_cases nnn s)
  exact ⟨fun h => hjp h nnn.isLt, fun h => hjpBad (.inl h), hjpV0, hjpV0Bad⟩

/-! ### CALL (R104) -/

/-- The state after CALL pushed its return address and jumped to `t`. -/
def State.called (s : State) (t : Nat) (h : s.sp.toNat < 16) : State :=
  { s with stack := s.stack.set s.sp.toNat s.pc h, sp := s.sp + 1#8, pc := BitVec.ofNat 16 t }

theorem exec_call_of_room {s : State} {nnn : Addr12} (ht : 0x200 ≤ nnn.toNat) (h : s.sp.toNat < 16) :
    exec (.call nnn) s = .next (s.called nnn.toNat h) := by
  have hok : targetOk (addrOf nnn) = true := (targetOk_iff _).mpr ⟨ht, nnn.isLt⟩
  refine (if_pos hok).trans ?_
  rcases pushJump_cases s (addrOf nnn) with ⟨_, e⟩ | ⟨hfull, _⟩
  · exact e
  · omega

theorem exec_call_of_full {s : State} {nnn : Addr12} (ht : 0x200 ≤ nnn.toNat) (h : 16 ≤ s.sp.toNat) :
    exec (.call nnn) s = raise .stackOverflow s := by
  have hok : targetOk (addrOf nnn) = true := (targetOk_iff _).mpr ⟨ht, nnn.isLt⟩
  refine (if_pos hok).trans ?_
  rcases pushJump_cases s (addrOf nnn) with ⟨hroom, _⟩ | ⟨_, e⟩
  · omega
  · exact e

theorem exec_call_of_low {s : State} {nnn : Addr12} (ht : nnn.toNat < 0x200) :
    exec (.call nnn) s = raise (.invalidAddress nnn.toNat) s :=
  if_neg fun hok => by
    have hlow := ((targetOk_iff (addrOf nnn)).mp hok).1
    exact absurd ht (not_lt.mpr hlow)

/-- SP with room for one more entry counts up without wrapping. -/
theorem sp_succ_toNat {sp : Byte} (h : sp.toNat < 16) : (sp + 1#8).toNat = sp.toNat + 1 := by
  rw [BitVec.toNat_add]; exact Nat.mod_eq_of_lt (by simp; omega)

theorem called_stack_same (s : State) (t : Nat) (h : s.sp.toNat < 16) :
    (s.called t h).stack[s.sp.toNat] = s.pc := by simp [State.called]

theorem called_stack_other (s : State) (t : Nat) (h : s.sp.toNat < 16) (k : Fin 16) (hk : k.val ≠ s.sp.toNat) :
    (s.called t h).stack[k] = s.stack[k] := by simp [State.called, hk.symm]

theorem unchangedBut_called (s : State) (t : Nat) (h : s.sp.toNat < 16) :
    UnchangedBut [.pc, .stack] s (s.called t h) := by
  intro p hp; cases p <;> simp_all [Part.same, State.reg, State.called]

/-- Settles O20: the push by its lemmas, the errors by the two failing checks. -/
theorem callPushesAndJumps : Obligations.CallPushesAndJumps := fun s nnn =>
  ⟨fun ht h => ⟨_, exec_call_of_room ht h, wordOf_addrOf_toNat nnn, sp_succ_toNat h, called_stack_same s _ h,
      called_stack_other s _ h, unchangedBut_called s _ h⟩,
   fun ht => raises_of_eq (exec_call_of_low ht),
   fun ht h => raises_of_eq (exec_call_of_full ht h)⟩

/-! ### RET (R101) -/

/-- The state after RET took the last entry of the stack. -/
def State.returned (s : State) (h : s.sp.toNat - 1 < 16) : State :=
  { s with sp := s.sp - 1#8, pc := s.stack[s.sp.toNat - 1] }

theorem exec_ret_of_entry {s : State} (h0 : 0 < s.sp.toNat) (h : s.sp.toNat - 1 < 16) :
    exec .ret s = .next (s.returned h) := by
  rcases pop_cases s with ⟨he, _⟩ | ⟨_, _, e⟩ | ⟨hover, _⟩
  · simp [he] at h0
  · exact e
  · omega

theorem exec_ret_of_empty {s : State} (h0 : s.sp.toNat = 0) : exec .ret s = raise .emptyCallStack s :=
  if_pos (BitVec.eq_of_toNat_eq h0)

theorem exec_ret_of_over {s : State} (h : 16 < s.sp.toNat) : exec .ret s = .fault (.noStackEntry (s.sp.toNat - 1)) := by
  rcases pop_cases s with ⟨he, _⟩ | ⟨hin, _⟩ | ⟨_, e⟩
  · simp [he] at h
  · omega
  · exact e

/-- SP with an entry counts down without wrapping. -/
theorem sp_pred_toNat {sp : Byte} (h : 0 < sp.toNat) : (sp - 1#8).toNat = sp.toNat - 1 := by
  have := sp.isLt
  rw [BitVec.toNat_sub, BitVec.toNat_ofNat]; omega

theorem unchangedBut_returned (s : State) (h : s.sp.toNat - 1 < 16) :
    UnchangedBut [.pc, .stack] s (s.returned h) := by
  intro p hp; cases p <;> simp_all [Part.same, State.reg, State.returned]

/-- Settles O21, by the three ranges of SP. -/
theorem retReturns : Obligations.RetReturns := fun s =>
  ⟨fun h0 h => ⟨_, exec_ret_of_entry h0 h, rfl, sp_pred_toNat h0, rfl, unchangedBut_returned s h⟩,
   fun h0 => raises_of_eq (exec_ret_of_empty h0),
   exec_ret_of_over⟩

/-! ### CALL, then RET (W-9) -/

theorem unchangedBut_stack (s : State) (st : Vector Word 16) : UnchangedBut [.stack] s { s with stack := st } := by
  intro p hp; cases p <;> simp_all [Part.same, State.reg]

/-- RET right after CALL gives back every field but the stack entry CALL wrote. -/
theorem exec_ret_called (s : State) (t : Nat) (h : s.sp.toNat < 16) :
    exec .ret (s.called t h) = .next { s with stack := s.stack.set s.sp.toNat s.pc h } := by
  have hsp : (s.sp + 1#8).toNat = s.sp.toNat + 1 := sp_succ_toNat h
  have hlast : (s.called t h).sp.toNat - 1 < 16 := by simp only [State.called]; omega
  refine (exec_ret_of_entry (by simp only [State.called]; omega) hlast).trans ?_
  simp [State.returned, State.called, hsp]

/-- Settles O22: RET takes the entry that CALL pushed. -/
theorem callThenRetRestoresPc : Obligations.CallThenRetRestoresPc := fun s nnn ht h =>
  ⟨_, _, exec_call_of_room ht h, exec_ret_called s _ h, rfl, rfl, called_stack_other s nnn.toNat h,
    unchangedBut_stack s _⟩

end Sys2Proof.Machine
end

section
/-! The flag instructions (42_alu.md R121, R128 to R132): what an instruction that writes a result and then the flag
leaves, proved once, and the shifts under both parameters. O25, O26, O27, O28, O29. -/
namespace Sys2Proof.Machine

open Sys2Proof.Safety

/-- An instruction that writes a result to Vx and then a flag to VF writes those two registers and nothing else; with
x = 0xF the flag stands (R121). -/
theorem exec_flagLast {i : Instr} {s : State} {x : Nibble} {r f : Byte}
    (h : exec i s = .next (s.writeResultAndFlag .flagLast x r f)) :
    ∃ t, exec i s = .next t ∧ (x ≠ 0xF#4 → t.reg x = r) ∧ t.reg 0xF#4 = f ∧
      RegsUnchangedBut [x, 0xF#4] s t ∧ UnchangedBut [.regs] s t := by
  have hreg := s.reg_writeFlagLast x (r := r) (f := f)
  refine ⟨_, h, fun hx => ?_, ?_, fun q hq => ?_, unchangedBut_writeResultAndFlag s _ x r f⟩
  · simp [hreg, vf, hx]
  · simp [hreg, vf]
  · obtain ⟨hqx, hqf⟩ : q ≠ x ∧ q ≠ 0xF#4 := by simpa using hq
    simp [hreg, vf, hqx, hqf]

theorem boolByte_decide (c : Prop) [Decidable c] : boolByte (decide c) = if c then 1#8 else 0#8 := by
  by_cases hc : c <;> simp [boolByte, hc]

/-! ### ADD, SUB and SUBN (R128 to R130) -/

theorem exec_addReg (x y : Nibble) (s : State) : exec (.addReg x y) s = .next
    (s.writeResultAndFlag .flagLast x (addWrap (s.reg x) (s.reg y)) (noOverflowFlag (s.reg x) (s.reg y))) := rfl

theorem exec_sub (x y : Nibble) (s : State) : exec (.sub x y) s = .next
    (s.writeResultAndFlag .flagLast x (subWrap (s.reg x) (s.reg y)) (noBorrowFlag (s.reg x) (s.reg y))) := rfl

theorem exec_subn (x y : Nibble) (s : State) : exec (.subn x y) s = .next
    (s.writeResultAndFlag .flagLast x (subWrap (s.reg y) (s.reg x)) (borrowFlag (s.reg x) (s.reg y))) := rfl

/-- Settles O25: the result is the sum modulo 256, the flag the inverse of its carry. -/
theorem addRegistersInverseCarry : Obligations.AddRegistersInverseCarry := fun s x y => by
  obtain ⟨t, hexec, hres, hflag, hframe⟩ := exec_flagLast (exec_addReg x y s)
  exact ⟨t, hexec, fun hx => by rw [hres hx, addWrap_toNat], hflag.trans (boolByte_decide _), hframe⟩

/-- Settles O26: the result is the difference modulo 256, the flag the inverse of its borrow. -/
theorem subNoBorrowFlag : Obligations.SubNoBorrowFlag := fun s x y => by
  obtain ⟨t, hexec, hres, hflag, hframe⟩ := exec_flagLast (exec_sub x y s)
  exact ⟨t, hexec, fun hx => by rw [hres hx, subWrap_toNat], hflag.trans (boolByte_decide _), hframe⟩

/-- Settles O27: the result is the reversed difference modulo 256, the flag its borrow. -/
theorem subnBorrowFlag : Obligations.SubnBorrowFlag := fun s x y => by
  obtain ⟨t, hexec, hres, hflag, hframe⟩ := exec_flagLast (exec_subn x y s)
  exact ⟨t, hexec, fun hx => by rw [hres hx, subWrap_toNat], hflag.trans (boolByte_decide _), hframe⟩

/-! ### SHR and SHL (R131, R132) -/

theorem exec_shr (x y : Nibble) (s : State) : exec (.shr x y) s = .next
    (s.writeResultAndFlag .flagLast x (shrResult (s.reg x)) (shrFlag (s.reg x))) := rfl

theorem exec_shl (x y : Nibble) (s : State) : exec (.shl x y) s = .next
    (s.writeResultAndFlag .flagLast x (shlResult (s.reg x)) (shlFlag (s.reg x))) := rfl

/-- Settles O28: the result and the flag are those of Vx, whatever y is. -/
theorem shiftsInPlace : Obligations.ShiftsInPlace := fun s x y => by
  obtain ⟨t, hexec, hres, hflag, hframe⟩ := exec_flagLast (exec_shr x y s)
  obtain ⟨t', hexec', hres', hflag', hframe'⟩ := exec_flagLast (exec_shl x y s)
  exact ⟨⟨t, hexec, fun hx => by rw [hres hx, shrResult_toNat], by rw [hflag, shrFlag_toNat], hframe⟩,
    ⟨t', hexec', fun hx => by rw [hres' hx, shlResult_toNat], by rw [hflag', shlFlag_toNat], hframe'⟩⟩

/-- Vx after the two writes, under either order: with x = 0xF the later write stands. -/
theorem reg_writeResultAndFlag_dest (s : State) (order : Config.VfWriteOrder) (x : Nibble) (r f : Byte) :
    (s.writeResultAndFlag order x r f).reg x = if x = 0xF#4 ∧ order = .flagLast then f else r := by
  cases order with
  | flagLast => simp [State.reg_writeFlagLast, vf]
  | resultLast => simp [State.reg_writeResultLast]

/-- VF after the two writes, under either order, where it is not the destination. -/
theorem reg_writeResultAndFlag_vf (s : State) (order : Config.VfWriteOrder) {x : Nibble} (hx : x ≠ 0xF#4) (r f : Byte) :
    (s.writeResultAndFlag order x r f).reg 0xF#4 = f := by
  cases order with
  | flagLast => simp [State.reg_writeFlagLast, vf]
  | resultLast => simp [State.reg_writeResultLast, vf, hx.symm]

/-- Settles O29: SHIFT_SOURCE picks the operand, VF_WRITE_ORDER the last write. -/
theorem shiftsUnderEveryParameter : Obligations.ShiftsUnderEveryParameter := fun s src order x y a ha => by
  have hsrc : shiftOperand src x y s = a := by rw [ha]; cases src <;> rfl
  simp only [State.shiftRight, State.shiftLeft, hsrc, reg_writeResultAndFlag_dest]
  refine ⟨?_, fun hx => ?_, ?_, fun hx => ?_⟩
  · rw [apply_ite BitVec.toNat, shrFlag_toNat, shrResult_toNat]
  · rw [reg_writeResultAndFlag_vf s order hx, shrFlag_toNat]
  · rw [apply_ite BitVec.toNat, shlFlag_toNat, shlResult_toNat]
  · rw [reg_writeResultAndFlag_vf s order hx, shlFlag_toNat]

end Sys2Proof.Machine
end

section
/-! LD F, LD B and the block transfers (43_index_memory.md R142 to R145): the outcome of each under its bound, what memory
and the registers read after it, and its frame. O32, O33, O34, O35, O36, O37. -/
namespace Sys2Proof.Machine

open Sys2Proof.Safety

/-! ### LD F (R142) -/

theorem exec_ldF_of_digit {s : State} {x : Nibble} (h : (s.reg x).toNat ≤ 15) :
    exec (.ldF x) s = .next { s with i := glyphAddr (s.reg x) } := if_neg (by omega)

theorem exec_ldF_of_no_digit {s : State} {x : Nibble} (h : 15 < (s.reg x).toNat) :
    exec (.ldF x) s = raise (.invalidDigit (s.reg x)) s := if_pos h

theorem glyphAddr_toNat {d : Byte} (h : d.toNat ≤ 15) : (glyphAddr d).toNat = d.toNat * 5 :=
  Nat.mod_eq_of_lt (by simp only [Config.glyphBytes]; omega)

/-- Settles O32: a write of I with the glyph's address, or the error. -/
theorem fontAddress : Obligations.FontAddress := fun _ _ =>
  ⟨fun h => exec_writesOnlyIndex (exec_ldF_of_digit h) (glyphAddr_toNat h),
   fun h => raises_of_eq (exec_ldF_of_no_digit h)⟩

/-! ### The data bound (R58) -/

/-- The data bound of `n` bytes at I fails. -/
theorem dataRangeOk_eq_false {a n : Nat} (h : a < 0x200 ∨ 4096 ≤ a + n) : ¬ dataRangeOk a n = true := by
  rw [dataRangeOk_iff]; omega

theorem unchangedBut_memory (s : State) (m : Memory) : UnchangedBut [.memory] s { s with mem := m } := by
  intro p hp; cases p <;> simp_all [Part.same, State.reg]

/-! ### LD B (R143) -/

/-- The state after the three digits of Vx are stored at I. -/
def State.digitsStored (s : State) (x : Nibble) : State :=
  { s with mem := Memory.writeBytes s.mem s.i.toNat (bcdDigits (s.reg x)) }

theorem exec_ldB_of_inBounds {s : State} (x : Nibble) (h1 : 0x200 ≤ s.i.toNat) (h2 : s.i.toNat + 3 < 4096) :
    exec (.ldB x) s = .next (s.digitsStored x) := if_pos ((dataRangeOk_iff _ _).mpr ⟨h1, h2⟩)

theorem exec_ldB_of_outOfBounds {s : State} (x : Nibble) (h : s.i.toNat < 0x200 ∨ 4096 ≤ s.i.toNat + 3) :
    exec (.ldB x) s = raise (.memoryAccess s.i 3) s := if_neg (dataRangeOk_eq_false h)

/-- The byte at each of the three places is its digit. -/
theorem read_digitsStored (s : State) (x : Nibble) {k : Nat} (hk : k < (bcdDigits (s.reg x)).length) :
    Memory.read (s.digitsStored x).mem (s.i.toNat + k) = (bcdDigits (s.reg x))[k] :=
  Memory.read_writeBytes_inside _ _ _ _ hk

/-- The three digits, hundreds first, are the decimal digits of the byte. -/
theorem bcdDigits_toNat (b : Byte) :
    (bcdDigits b)[0].toNat = b.toNat / 100 ∧ (bcdDigits b)[1].toNat = b.toNat / 10 % 10 ∧
    (bcdDigits b)[2].toNat = b.toNat % 10 := by
  have := b.isLt
  refine ⟨Nat.mod_eq_of_lt ?_, Nat.mod_eq_of_lt ?_, Nat.mod_eq_of_lt ?_⟩ <;> omega

/-- Settles O33: the stored bytes are the digits, whose value is Vx's. -/
theorem bcdStore : Obligations.BcdStore := fun s x => by
  refine ⟨fun h1 h2 => ?_, fun h => raises_of_eq (exec_ldB_of_outOfBounds x h)⟩
  obtain ⟨hhundreds, htens, hunits⟩ := bcdDigits_toNat (s.reg x)
  have hlt := (s.reg x).isLt
  have hread0 := read_digitsStored s x (k := 0) (by simp)
  have hread1 := read_digitsStored s x (k := 1) (by simp)
  have hread2 := read_digitsStored s x (k := 2) (by simp)
  rw [Nat.add_zero] at hread0
  refine ⟨_, exec_ldB_of_inBounds x h1 h2, ?_, fun k hk => ?_, fun a ha => ?_, unchangedBut_memory s _⟩
  · rw [hread0, hread1, hread2, hhundreds, htens, hunits]; omega
  · obtain rfl | rfl | rfl : k = 0 ∨ k = 1 ∨ k = 2 := by omega
    · rw [Nat.add_zero, hread0, hhundreds]; omega
    · rw [hread1, htens]; omega
    · rw [hread2, hunits]; omega
  · exact Memory.read_writeBytes_outside _ _ _ _ ha

/-! ### LD [I], Vx (R144) -/

/-- I after a block transfer within the bound: advanced without wrapping. -/
theorem advanceI_i_toNat (s : State) (x : Nibble) (h : s.i.toNat + (x.toNat + 1) < 4096) :
    (s.advanceI x).i.toNat = s.i.toNat + x.toNat + 1 := by
  have hx : (BitVec.ofNat 16 (blockLen x)).toNat = x.toNat + 1 := Nat.mod_eq_of_lt (by simp only [blockLen]; omega)
  rw [State.advanceI_i, BitVec.toNat_add, hx, Nat.mod_eq_of_lt (by omega)]; omega

theorem unchangedBut_advanceI (s : State) (x : Nibble) : UnchangedBut [.index] s (s.advanceI x) :=
  unchangedBut_index s _

/-- The state after V0 to Vx are stored at I and I is advanced. -/
def State.blockStored (s : State) (x : Nibble) : State :=
  { s with mem := Memory.writeBytes s.mem s.i.toNat (s.regsUpTo x) }.advanceI x

theorem exec_ldStore_of_inBounds {s : State} {x : Nibble} (h1 : 0x200 ≤ s.i.toNat)
    (h2 : s.i.toNat + (x.toNat + 1) < 4096) : exec (.ldStore x) s = .next (s.blockStored x) :=
  if_pos ((dataRangeOk_iff _ _).mpr ⟨h1, h2⟩)

theorem exec_ldStore_of_outOfBounds {s : State} {x : Nibble}
    (h : s.i.toNat < 0x200 ∨ 4096 ≤ s.i.toNat + (x.toNat + 1)) :
    exec (.ldStore x) s = raise (.memoryAccess s.i (x.toNat + 1)) s := if_neg (dataRangeOk_eq_false h)

/-- Each register's byte stands at its place in the block. -/
theorem read_blockStored (s : State) {x r : Nibble} (h : r ≤ x) :
    Memory.read (s.blockStored x).mem (s.i.toNat + r.toNat) = s.reg r := by
  have hr : r.toNat < (s.regsUpTo x).length := by
    rw [State.regsUpTo_length]; exact Nat.lt_succ_of_le (BitVec.le_def.mp h)
  have hbyte : (s.regsUpTo x)[r.toNat]? = some (s.reg r) := by
    rw [State.regsUpTo_getElem?, if_pos (by simpa using hr), BitVec.ofNat_toNat, BitVec.setWidth_eq]
  refine (Memory.read_writeBytes_inside s.mem s.i.toNat r.toNat (s.regsUpTo x) hr).trans ?_
  exact Option.some.inj ((List.getElem?_eq_getElem hr).symm.trans hbyte)

theorem blockStored_memory_outside (s : State) (x : Nibble) :
    MemoryUnchangedOutside s.i.toNat (x.toNat + 1) s (s.blockStored x) := fun _ ha =>
  Memory.read_writeBytes_outside _ _ _ _ (by rwa [State.regsUpTo_length])

theorem blockStored_i_toNat (s : State) (x : Nibble) (h : s.i.toNat + (x.toNat + 1) < 4096) :
    (s.blockStored x).i.toNat = s.i.toNat + x.toNat + 1 :=
  advanceI_i_toNat { s with mem := Memory.writeBytes s.mem s.i.toNat (s.regsUpTo x) } x h

theorem unchangedBut_blockStored (s : State) (x : Nibble) : UnchangedBut [.memory, .index] s (s.blockStored x) :=
  unchangedBut_append (unchangedBut_memory s _) (unchangedBut_advanceI _ x)

/-- Settles O34: the stored block by its lemmas, or the error. -/
theorem blockStore : Obligations.BlockStore := fun s x =>
  ⟨fun h1 h2 => ⟨_, exec_ldStore_of_inBounds h1 h2, fun _ => read_blockStored s, blockStored_i_toNat s x h2,
      blockStored_memory_outside s x, unchangedBut_blockStored s x⟩,
   fun h => raises_of_eq (exec_ldStore_of_outOfBounds h)⟩

/-! ### LD Vx, [I] (R145) -/

/-- The state after V0 to Vx are loaded from I and I is advanced. -/
def State.blockLoaded (s : State) (x : Nibble) : State := (s.loadRegs s.i.toNat (blockLen x)).advanceI x

theorem exec_ldLoad_of_inBounds {s : State} {x : Nibble} (h1 : 0x200 ≤ s.i.toNat)
    (h2 : s.i.toNat + (x.toNat + 1) < 4096) : exec (.ldLoad x) s = .next (s.blockLoaded x) :=
  if_pos ((dataRangeOk_iff _ _).mpr ⟨h1, h2⟩)

theorem exec_ldLoad_of_outOfBounds {s : State} {x : Nibble}
    (h : s.i.toNat < 0x200 ∨ 4096 ≤ s.i.toNat + (x.toNat + 1)) :
    exec (.ldLoad x) s = raise (.memoryAccess s.i (x.toNat + 1)) s := if_neg (dataRangeOk_eq_false h)

theorem reg_blockLoaded (s : State) (x r : Nibble) :
    (s.blockLoaded x).reg r = if r ≤ x then Memory.read s.mem (s.i.toNat + r.toNat) else s.reg r := by
  have hx : blockLen x ≤ 16 := x.isLt
  have hle : r ≤ x ↔ r.toNat < blockLen x := BitVec.le_def.trans Nat.lt_succ_iff.symm
  simp only [hle]
  exact s.reg_loadRegs s.i.toNat (blockLen x) hx r

theorem blockLoaded_i (s : State) (x : Nibble) : (s.blockLoaded x).i = (s.advanceI x).i := by
  simp [State.blockLoaded]

theorem unchangedBut_loadRegs (s : State) (a n : Nat) : UnchangedBut [.regs] s (s.loadRegs a n) := by
  intro p hp; cases p <;> simp_all [Part.same]

theorem unchangedBut_blockLoaded (s : State) (x : Nibble) : UnchangedBut [.regs, .index] s (s.blockLoaded x) :=
  unchangedBut_append (unchangedBut_loadRegs s _ _) (unchangedBut_advanceI _ x)

/-- Settles O35: the loaded block by its lemmas, or the error. -/
theorem blockLoad : Obligations.BlockLoad := fun s x =>
  ⟨fun h1 h2 => ⟨_, exec_ldLoad_of_inBounds h1 h2, reg_blockLoaded s x,
      (congrArg BitVec.toNat (blockLoaded_i s x)).trans (advanceI_i_toNat s x h2), unchangedBut_blockLoaded s x⟩,
   fun h => raises_of_eq (exec_ldLoad_of_outOfBounds h)⟩

/-! ### A store and what reads it back (R62, R64) -/

/-- Settles O36: a load from the same base reads the bytes that the store left. -/
theorem storeThenLoadBack : Obligations.StoreThenLoadBack := fun s x h1 h2 => by
  refine ⟨_, exec_ldStore_of_inBounds h1 h2, fun u hi hmem => ?_⟩
  refine ⟨_, exec_ldLoad_of_inBounds (hi ▸ h1) (hi ▸ h2), fun r hr => ?_, ?_⟩
  · rw [reg_blockLoaded, if_pos hr, hmem, hi]
    exact read_blockStored s hr
  · rw [blockLoaded_i, State.advanceI_i, hi]; rfl

/-- Settles O37: the two bytes at the old I are V0 and V1. -/
theorem storedWordIsFetched : Obligations.StoredWordIsFetched := fun s x hx h1 h2 => by
  refine ⟨_, exec_ldStore_of_inBounds h1 h2, ?_⟩
  have hread0 : Memory.read (s.blockStored x).mem s.i.toNat = s.reg 0x0#4 :=
    read_blockStored s (r := 0x0#4) (BitVec.le_def.mpr (Nat.zero_le _))
  have hread1 : Memory.read (s.blockStored x).mem (s.i.toNat + 1) = s.reg 0x1#4 :=
    read_blockStored s (r := 0x1#4) (BitVec.le_def.mpr hx)
  have hfetch := fetchWord_eq (s := { s.blockStored x with pc := s.i }) (by simp only; omega)
  rw [hfetch, wordAtPc, wordOfBytes, hread0, hread1]

end Sys2Proof.Machine
end

section
/-! DRW and the key skips (44_display_keys_timers.md R161 to R164): the pixels and the flag after one draw and after two,
and the skips on a key. O39, O40, O41, O42. -/
namespace Sys2Proof.Machine

open Sys2Proof.Safety

/-! ### One draw (R161, R162) -/

/-- The state after a draw within the bound. -/
def State.drew (s : State) (x y n : Nibble) : State :=
  { s with disp := (s.drawn x y n).1 }.setReg vf (boolByte (s.drawn x y n).2)

/-- The pixel is covered by the sprite that DRW Vx, Vy, n draws in this state. -/
def State.Covers (s : State) (x y n : Nibble) (row : Fin 32) (col : Fin 64) : Prop :=
  SpriteCovers s.mem s.i.toNat (s.reg x) (s.reg y) n.toNat row col

theorem exec_drw_of_inBounds {s : State} (x y : Nibble) {n : Nibble} (h : s.i.toNat + n.toNat ≤ 4096) :
    exec (.drw x y n) s = .next (s.drew x y n) := if_pos ((spriteRangeOk_iff _ _).mpr h)

theorem exec_drw_of_outOfBounds {s : State} (x y : Nibble) {n : Nibble} (h : 4096 < s.i.toNat + n.toNat) :
    exec (.drw x y n) s = raise (.memoryAccess s.i n.toNat) s :=
  if_neg fun hok => absurd ((spriteRangeOk_iff _ _).mp hok) (not_le.mpr h)

theorem drew_get_of_covers {s : State} {x y n : Nibble} {row : Fin 32} {col : Fin 64} (h : s.Covers x y n row col) :
    (s.drew x y n).disp.get row col = !s.disp.get row col := by
  classical
  exact (drawRows_get _ _ _ _ _ _ n.isLt.le row col).trans (if_pos h)

theorem drew_get_of_not_covers {s : State} {x y n : Nibble} {row : Fin 32} {col : Fin 64}
    (h : ¬ s.Covers x y n row col) : (s.drew x y n).disp.get row col = s.disp.get row col := by
  classical
  exact (drawRows_get _ _ _ _ _ _ n.isLt.le row col).trans (if_neg h)

/-- The collision of a draw: some covered pixel was lit. -/
theorem drawn_hit_iff (s : State) (x y n : Nibble) :
    (s.drawn x y n).2 = true ↔ ∃ row col, s.Covers x y n row col ∧ s.disp.get row col = true :=
  (drawRows_hit _ _ _ _ _ _ n.isLt.le).trans (by simp [State.Covers])

theorem drew_vf (s : State) (x y n : Nibble) : (s.drew x y n).reg 0xF#4 = boolByte (s.drawn x y n).2 :=
  State.reg_setReg_same _ vf _

theorem boolByte_eq_one_iff (c : Bool) : boolByte c = 1#8 ↔ c = true := by cases c <;> decide

theorem boolByte_eq_zero_or_one (c : Bool) : boolByte c = 0#8 ∨ boolByte c = 1#8 := by cases c <;> decide

/-- VF after a draw is 1 exactly if some covered pixel was lit. -/
theorem drew_vf_eq_one_iff (s : State) (x y n : Nibble) :
    (s.drew x y n).reg 0xF#4 = 1#8 ↔ ∃ row col, s.Covers x y n row col ∧ s.disp.get row col = true := by
  rw [drew_vf, boolByte_eq_one_iff, drawn_hit_iff]

theorem drew_vf_eq_zero_or_one (s : State) (x y n : Nibble) :
    (s.drew x y n).reg 0xF#4 = 0#8 ∨ (s.drew x y n).reg 0xF#4 = 1#8 := by
  rw [drew_vf]; exact boolByte_eq_zero_or_one _

theorem regsUnchangedBut_drew (s : State) (x y n : Nibble) : RegsUnchangedBut [0xF#4] s (s.drew x y n) :=
  regsUnchangedBut_setReg { s with disp := (s.drawn x y n).1 } vf _

theorem unchangedBut_drew (s : State) (x y n : Nibble) : UnchangedBut [.regs, .display] s (s.drew x y n) :=
  unchangedBut_mono (unchangedBut_append (unchangedBut_display s _) (unchangedBut_setReg _ vf _)) (by simp)

/-- Settles O39: the covered pixels flip, VF is the collision. -/
theorem drawFlipsCoveredPixels : Obligations.DrawFlipsCoveredPixels := fun s x y n => by
  refine ⟨fun h => ⟨_, exec_drw_of_inBounds x y h, fun _ _ => drew_get_of_covers, fun _ _ => drew_get_of_not_covers,
    (drew_vf_eq_one_iff s x y n).mpr, fun hnone => ?_, regsUnchangedBut_drew s x y n, unchangedBut_drew s x y n⟩,
    fun h => raises_of_eq (exec_drw_of_outOfBounds x y h)⟩
  exact (drew_vf_eq_zero_or_one s x y n).resolve_right (mt (drew_vf_eq_one_iff s x y n).mp hnone)

/-! ### Two draws (W-4) -/

/-- Drawing where neither coordinate register is VF leaves the sprite where it was. -/
theorem drew_covers_iff (s : State) {x y : Nibble} (n : Nibble) (hx : x ≠ 0xF#4) (hy : y ≠ 0xF#4)
    (row : Fin 32) (col : Fin 64) : (s.drew x y n).Covers x y n row col ↔ s.Covers x y n row col := by
  have hframe := regsUnchangedBut_drew s x y n
  rw [State.Covers, hframe x (by simpa using hx), hframe y (by simpa using hy)]
  rfl

/-- The second draw flips back what the first one flipped. -/
theorem drew_drew_disp (s : State) {x y : Nibble} (n : Nibble) (hx : x ≠ 0xF#4) (hy : y ≠ 0xF#4) :
    ((s.drew x y n).drew x y n).disp = s.disp := by
  apply Display.ext_get
  intro row col
  have hsame := drew_covers_iff s n hx hy row col
  by_cases hc : s.Covers x y n row col
  · rw [drew_get_of_covers (hsame.mpr hc), drew_get_of_covers hc, Bool.not_not]
  · rw [drew_get_of_not_covers (mt hsame.mp hc), drew_get_of_not_covers hc]

/-- A pixel covered and lit after the first draw is one that was covered and off before it. -/
theorem drew_drew_vf_eq_one_iff (s : State) {x y : Nibble} (n : Nibble) (hx : x ≠ 0xF#4) (hy : y ≠ 0xF#4) :
    ((s.drew x y n).drew x y n).reg 0xF#4 = 1#8 ↔ ∃ row col, s.Covers x y n row col ∧ s.disp.get row col = false := by
  simp only [drew_vf_eq_one_iff, drew_covers_iff s n hx hy]
  have hflip (row col) (hc : s.Covers x y n row col) :
      (s.drew x y n).disp.get row col = true ↔ s.disp.get row col = false := by simp [drew_get_of_covers hc]
  exact exists₂_congr fun row col => and_congr_right (hflip row col)

/-- Two draws change VF and nothing else, where the display is back. -/
theorem unchangedBut_drew_drew {s : State} {x y n : Nibble} (hdisp : ((s.drew x y n).drew x y n).disp = s.disp) :
    UnchangedBut [.regs] s ((s.drew x y n).drew x y n) := by
  have hframe := unchangedBut_trans (unchangedBut_drew s x y n) (unchangedBut_drew (s.drew x y n) x y n)
  intro p hp
  by_cases hd : p = .display
  · subst hd
    exact fun row col => congrArg (Display.get · row col) hdisp
  · exact hframe p (by simp_all)

/-- A byte that is not zero has a set bit, counted from bit 7 as a sprite row counts them. -/
theorem ne_zero_iff_bit : ∀ b : Byte, b ≠ 0#8 ↔ ∃ j < 8, b.getLsbD (7 - j) = true := by decide

/-- Some pixel is covered exactly if the sprite has a set bit. -/
theorem covers_some_iff (s : State) (x y n : Nibble) :
    (∃ row col, s.Covers x y n row col) ↔ ∃ r < n.toNat, Memory.read s.mem (s.i.toNat + r) ≠ 0#8 := by
  simp only [ne_zero_iff_bit]
  constructor
  · rintro ⟨row, col, r, hr, j, hj, -, -, hbit⟩
    exact ⟨r, hr, j, hj, hbit⟩
  · rintro ⟨r, hr, j, hj, hbit⟩
    exact ⟨spriteRow (s.reg y) r, spriteCol (s.reg x) j, r, hr, j, hj, rfl, rfl, hbit⟩

/-- Settles O40: the draws cancel, and the second one's flag is about the pixels that were off. -/
theorem drawTwiceRestoresDisplay : Obligations.DrawTwiceRestoresDisplay := fun s x y n hx hy h => by
  have hdisp := drew_drew_disp s n hx hy
  have hvf := drew_drew_vf_eq_one_iff s n hx hy
  refine ⟨_, _, exec_drw_of_inBounds x y h, exec_drw_of_inBounds x y h, hdisp, hvf, drew_vf_eq_zero_or_one _ x y n,
    fun hclear => ?_, fun q hq => ?_, unchangedBut_drew_drew hdisp⟩
  · rw [hvf, ← covers_some_iff s x y]; simp [hclear]
  · exact (regsUnchangedBut_drew _ x y n q hq).trans (regsUnchangedBut_drew s x y n q hq)

/-- A lit pixel at the corner and, at 0x300, a sprite of that one pixel. -/
def litPixelUnderSprite : State :=
  { State.reset with mem := [(0x300, 0x80#8)], i := 0x300#16, disp := Display.clear.toggle 0 0 }

/-- Refutes O41: over a lit pixel the first draw turns it off, so that the second meets none lit. -/
theorem not_secondDrawFlagsEverySetSprite : ¬ Obligations.SecondDrawFlagsEverySetSprite := fun h => by
  have hclaim := h litPixelUnderSprite _ _ 0x0 0x1 0x1 (by decide) (by decide) rfl rfl rfl
  exact absurd (hclaim.mpr ⟨0, by decide, by decide⟩) (by decide)

/-! ### SKP and SKNP (R163, R164) -/

theorem skipOnKey_of_key {want : Bool} {s : State} {x k : Nibble} (h : (s.reg x).toNat = k.toNat) :
    skipOnKey want x s = .next (s.skipIf (s.key k == want)) := by
  have hk : (s.reg x).setWidth 4 = k := BitVec.eq_of_toNat_eq (by rw [BitVec.toNat_setWidth, h]; exact Nat.mod_eq_of_lt k.isLt)
  rcases skipOnKey_cases want x s with ⟨_, e⟩ | ⟨hover, _⟩
  · rw [e, hk]
  · have := k.isLt; omega

theorem skipOnKey_of_no_key {want : Bool} {s : State} {x : Nibble} (h : 15 < (s.reg x).toNat) :
    skipOnKey want x s = raise (.invalidKey (s.reg x)) s := if_pos h

/-- Settles O42: SKP skips if the key is down, SKNP if it is up. -/
theorem skipsOnKeys : Obligations.SkipsOnKeys := fun s x k => by
  refine ⟨fun h => ⟨_, skipOnKey_of_key h, ?_, unchangedBut_skipIf s _⟩,
    fun h => ⟨_, skipOnKey_of_key h, ?_, unchangedBut_skipIf s _⟩,
    fun h => raises_of_eq (skipOnKey_of_no_key h), fun h => raises_of_eq (skipOnKey_of_no_key h)⟩
  · rw [State.skipIf_pc]; cases s.key k <;> rfl
  · rw [State.skipIf_pc]; cases s.key k <;> rfl

end Sys2Proof.Machine
end

section
/-! What every instruction writes and raises (10_state.md R22, R35; 20_memory.md R61; 60_exceptions.md R200): one lemma per
part of the state, each by the inversion of `exec`. O46, O47, O48, O50, O51, O52, O53. -/
namespace Sys2Proof.Machine

open Sys2Proof.Safety

/-! ### Every instruction answers (R205) -/

/-- Settles O53: RET and CALL by the inversions of the stack, the checked instructions by their own. -/
theorem everyInstructionAnswers : Obligations.EveryInstructionAnswers := by
  intro i s hsp
  cases i
  case ret =>
    rcases pop_cases s with ⟨_, e⟩ | ⟨_, _, e⟩ | ⟨hover, _⟩
    · exact ⟨_, e⟩
    · exact ⟨_, e⟩
    · omega
  case call nnn =>
    rcases execCall_cases nnn s with ⟨_, e⟩ | ⟨_, e⟩
    · rcases pushJump_cases s (addrOf nnn) with ⟨_, e'⟩ | ⟨_, e'⟩ <;> exact ⟨_, e.trans e'⟩
    · exact ⟨_, e⟩
  case jp nnn => rcases execJp_cases nnn s with ⟨_, e⟩ | ⟨_, e⟩ <;> exact ⟨_, e⟩
  case jpV0 nnn => rcases execJpV0_cases nnn s with ⟨_, e⟩ | ⟨_, e⟩ <;> exact ⟨_, e⟩
  case ldF x => rcases execLdF_cases x s with ⟨_, e⟩ | ⟨_, e⟩ <;> exact ⟨_, e⟩
  case ldB x => rcases execLdB_cases x s with ⟨_, e⟩ | ⟨_, e⟩ <;> exact ⟨_, e⟩
  case ldStore x => rcases execLdStore_cases x s with ⟨_, e⟩ | ⟨_, e⟩ <;> exact ⟨_, e⟩
  case ldLoad x => rcases execLdLoad_cases x s with ⟨_, e⟩ | ⟨_, e⟩ <;> exact ⟨_, e⟩
  case drw x y n => rcases execDrw_cases x y n s with ⟨_, e⟩ | ⟨_, e⟩ <;> exact ⟨_, e⟩
  case skp x => rcases skipOnKey_cases true x s with ⟨_, e⟩ | ⟨_, e⟩ <;> exact ⟨_, e⟩
  case sknp x => rcases skipOnKey_cases false x s with ⟨_, e⟩ | ⟨_, e⟩ <;> exact ⟨_, e⟩
  case ldVxK x => rcases execLdVxK_cases x s with ⟨_, _, e⟩ | ⟨_, e⟩ <;> exact ⟨_, e⟩
  all_goals exact ⟨_, rfl⟩

/-! ### What an instruction writes -/

/-- A block transfer that does not name VF does not reach it. -/
theorem not_vf_le : ∀ x : Nibble, x ≠ 0xF#4 → ¬ 0xF#4 ≤ x := by decide

section
variable {i : Instr} {s t : State} (h : exec i s = .next t)
include h

theorem exec_keeps_index (hi : writesIndex i = false) : t.i = s.i := by
  cases exec_effect h
  case index hw => simp [hi] at hw
  case store | load => simp [writesIndex] at hi
  all_goals simp

/-- Memory after an instruction: as it was, or with a block inside the data bound written at I (R58). -/
theorem exec_mem : t.mem = s.mem ∨ writesMemory i = true ∧ ∃ bytes : List Byte,
    0x200 ≤ s.i.toNat ∧ s.i.toNat + bytes.length < 0x1000 ∧ t.mem = Memory.writeBytes s.mem s.i.toNat bytes := by
  cases exec_effect h
  case bcd x hr =>
    obtain ⟨hlow, hhigh⟩ := (dataRangeOk_iff _ _).mp hr
    exact .inr ⟨rfl, bcdDigits (s.reg x), hlow, hhigh, rfl⟩
  case store x hr =>
    obtain ⟨hlow, hhigh⟩ := (dataRangeOk_iff _ _).mp hr
    exact .inr ⟨rfl, s.regsUpTo x, hlow, by rwa [State.regsUpTo_length], rfl⟩
  all_goals exact .inl (by simp)

theorem exec_keeps_memory (hi : writesMemory i = false) : t.mem = s.mem := by
  rcases exec_mem h with hm | ⟨hw, _⟩
  · exact hm
  · simp [hi] at hw

theorem exec_keeps_low_memory {a : Nat} (ha : a < 0x200) : Memory.read t.mem a = Memory.read s.mem a := by
  rcases exec_mem h with hm | ⟨_, bytes, hlow, _, hm⟩ <;> rw [hm]
  exact Memory.read_writeBytes_outside _ _ _ _ (.inl (by omega))

theorem exec_keeps_memory_form (hwf : Memory.wf s.mem = true) : Memory.wf t.mem = true := by
  rcases exec_mem h with hm | ⟨_, bytes, _, hhigh, hm⟩ <;> rw [hm]
  · exact hwf
  · exact Memory.wf_writeBytes _ _ _ hwf hhigh.le

theorem exec_keeps_stack (hi : accessesStack i = false) : t.sp = s.sp ∧ t.stack = s.stack := by
  cases exec_effect h
  case ret | call => simp [accessesStack] at hi
  all_goals simp

theorem exec_keeps_delayTimer (hi : ∀ x, i ≠ .ldDt x) : t.dt = s.dt := by
  cases exec_effect h
  case delay x => exact absurd rfl (hi x)
  all_goals simp

theorem exec_keeps_soundTimer (hi : ∀ x, i ≠ .ldSt x) : t.st = s.st := by
  cases exec_effect h
  case sound x => exact absurd rfl (hi x)
  all_goals simp

theorem exec_keeps_display (hcls : i ≠ .cls) (hdrw : ∀ x y n, i ≠ .drw x y n) : t.disp = s.disp := by
  cases exec_effect h
  case cls => exact absurd rfl hcls
  case draw x y n _ => exact absurd rfl (hdrw x y n)
  all_goals simp

/-- The host's side and the orchestrator's own fields, raising or not. -/
theorem exec_keeps_host :
    t.acc = s.acc ∧ t.tone = s.tone ∧ t.loaded = s.loaded ∧ t.inbox = s.inbox ∧ t.hostDelta = s.hostDelta := by
  rcases exec_next h with ⟨e, rfl⟩ | hq
  · exact ⟨rfl, rfl, rfl, rfl, rfl⟩
  · exact ⟨hq.acc, hq.tone, hq.loaded, hq.inbox, hq.hostDelta⟩

theorem exec_keeps_keys : t.keys = s.keys := by
  rcases exec_next h with ⟨e, rfl⟩ | hq
  · rfl
  · exact hq.keys

theorem exec_keeps_vf (hflag : producesFlag i = false) (hdest : destinationVf i = false) :
    t.reg 0xF#4 = s.reg 0xF#4 := by
  cases exec_effect h
  case reg x b hx => exact s.reg_setReg_other (hx hflag hdest).symm b
  case flag hf => simp [hflag] at hf
  case draw => simp [producesFlag] at hflag
  case rnd x _ | keyTaken x _ _ =>
    have hx : x ≠ 0xF#4 := by simpa [destinationVf] using hdest
    exact s.reg_setReg_other hx.symm _
  case load x _ =>
    have hx : x ≠ 0xF#4 := by simpa [destinationVf] using hdest
    exact (reg_blockLoaded s x 0xF#4).trans (if_neg (not_vf_le x hx))
  all_goals exact State.reg_congr (by simp) _

/-- An instruction that latches an error raised it, one listed for it, and did nothing else. -/
theorem exec_latches {e : Error} (hs : s.fault = none) (he : t.fault = some e) :
    mayRaise i e = true ∧ t = s.raised e := by
  cases exec_effect h
  case raised e' hmay =>
    cases he
    exact ⟨hmay, rfl⟩
  all_goals simp [hs] at he

end

/-- Settles O46: a register write that is no flag and names no VF is to another register. -/
theorem onlyFlagInstructionsWriteVf : Obligations.OnlyFlagInstructionsWriteVf := fun _ _ _ => exec_keeps_vf

/-- Settles O50, part by part. -/
theorem instructionsWriteOnlyTheirState : Obligations.InstructionsWriteOnlyTheirState := fun _ _ _ h =>
  ⟨exec_keeps_index h, fun hi _ => by rw [exec_keeps_memory h hi], exec_keeps_stack h, exec_keeps_delayTimer h,
    exec_keeps_soundTimer h, exec_keeps_host h⟩

/-- Settles O51: a block written at I starts at 0x200 or above. -/
theorem lowMemoryNeverWritten : Obligations.LowMemoryNeverWritten := fun _ _ _ _ h ha => exec_keeps_low_memory h ha

/-- Settles O52: the only effect that latches an error is raising it. -/
theorem errorsArePreciseAndListed : Obligations.ErrorsArePreciseAndListed := fun _ s _ e h hs he => by
  obtain ⟨hmay, rfl⟩ := exec_latches h hs he
  exact ⟨hmay, rfl, unchangedBut_raised s e⟩

/-- Settles O47: the instructions by their inversion, the load and the key events by theirs. -/
theorem onlyClsAndDrwWriteDisplay : Obligations.OnlyClsAndDrwWriteDisplay := by
  refine ⟨fun _ _ _ => exec_keeps_display, fun op s t h hreset hcycle => ?_⟩
  cases op with
  | load p =>
    obtain ⟨_, ⟨_, rfl⟩ | ⟨_, rfl⟩⟩ := loadProgram_next h <;> rfl
  | reset => exact absurd rfl hreset
  | executeCycle d => exact absurd rfl (hcycle d)
  | keyDown k =>
    obtain ⟨q, _, rfl⟩ := keyDown_next h
    simp
  | keyUp k =>
    obtain ⟨q, _, rfl⟩ := keyUp_next h
    rfl

/-! ### KEYS (R30) -/

theorem cycleBody_keeps_keys {s u : State} (h : s.cycleBody = .next u) : u.keys = s.keys := by
  rcases cycleBody_next h with ⟨_, rfl⟩ | ⟨_, _, i, hi⟩ | ⟨_, _, e, rfl⟩ | ⟨_, _, e, rfl⟩
  · rfl
  · exact exec_keeps_keys (s := s.advance) hi
  · rfl
  · rfl

theorem executeCycle_keeps_keys {delta : Rat} {s t : State} (h : executeCycle delta s = .next t) : t.keys = s.keys := by
  obtain ⟨_, _, _, u, hu, rfl⟩ := executeCycle_next h
  have hkeys : u.keys = s.keys := cycleBody_keeps_keys (s := s.tickTimers delta) hu
  split <;> simp [hkeys]

/-- LD Vx, K answers by PEND alone: other keys down give the same state with those keys. -/
theorem exec_ldVxK_keys {s t : State} {x : Nibble} (ks : Vector Bool 16) (h : exec (.ldVxK x) s = .next t) :
    exec (.ldVxK x) { s with keys := ks } = .next { t with keys := ks } := by
  rcases execLdVxK_cases x s with ⟨k, hp, e⟩ | ⟨hp, e⟩ <;> cases e.symm.trans h
  · exact exec_ldVxK_of_pend (s := { s with keys := ks }) hp x
  · exact exec_ldVxK_of_no_pend (s := { s with keys := ks }) hp x

/-- Settles O48: of the host's operations, a load and a cycle leave KEYS. -/
theorem keysBelongToKeyEvents : Obligations.KeysBelongToKeyEvents := by
  refine ⟨fun _ _ _ => exec_keeps_keys, fun _ _ _ ks => exec_ldVxK_keys ks, fun op s t h hk => ?_⟩
  cases op with
  | load p => obtain ⟨_, ⟨_, rfl⟩ | ⟨_, rfl⟩⟩ := loadProgram_next h <;> exact absurd rfl hk
  | reset => exact .inl rfl
  | executeCycle d => exact absurd (executeCycle_keeps_keys h) hk
  | keyDown k => exact .inr ⟨k, .inl rfl⟩
  | keyUp k => exact .inr ⟨k, .inr rfl⟩

end Sys2Proof.Machine
end

section
/-! The cycle (45_cycle_orchestrator.md R180 to R185, R188): what a cycle answers in each of its cases, and what its ticks,
its error or its tone check leave. O5, O6, O7, O8, O9, O10, O11, O12, O45. -/
namespace Sys2Proof.Machine

open Sys2Proof.Safety

/-! ### What a cycle answers (R180, R183) -/

/-- Within the contract a cycle is its body after the ticks, and then the tone check. -/
theorem executeCycle_of_mayCycle {delta : Rat} {s : State} (h : HostMayCycle delta s) :
    executeCycle delta s = endCycle (s.tickTimers delta).cycleBody := by
  obtain ⟨hloaded, hfault, hdelta⟩ := h
  exact executeCycle_eq hloaded hfault hdelta

/-- A raised error ends the cycle without the tone check. -/
theorem endCycle_raise (e : Error) (s : State) : endCycle (raise e s) = .next (s.raised e) := rfl

theorem endCycle_next {s : State} (h : s.fault = none) : endCycle (.next s) = .next s.toneEdge := by
  simp [endCycle, h]

section
variable {delta : Rat} {s : State} (h : HostMayCycle delta s)
include h

theorem executeCycle_of_waiting (hw : s.wait = true) :
    executeCycle delta s = .next (s.tickTimers delta).toneEdge := by
  rw [executeCycle_of_mayCycle h, cycleBody_waiting (s := s.tickTimers delta) hw]
  obtain ⟨-, hfault, -⟩ := h
  exact endCycle_next hfault

theorem executeCycle_of_running (hw : s.wait = false) :
    executeCycle delta s = endCycle (s.tickTimers delta).runOne := by
  rw [executeCycle_of_mayCycle h, cycleBody_running (s := s.tickTimers delta) hw]

theorem executeCycle_of_fetchFault (hw : s.wait = false) (hpc : 0xFFF ≤ s.pc.toNat) :
    executeCycle delta s = .next ((s.tickTimers delta).raised (.memoryAccess s.pc 2)) := by
  rw [executeCycle_of_running h hw]
  rcases runOne_cases (s.tickTimers delta) with ⟨_, e⟩ | ⟨hlt, _⟩
  · rw [e]; rfl
  · exact absurd hpc (not_le.mpr hlt)

theorem executeCycle_of_undefined {r : DecodeReject} (hw : s.wait = false) (hpc : s.pc.toNat + 1 ≤ 0xFFF)
    (hd : decode (wordAtPc s) = .error r) :
    executeCycle delta s = .next ((s.tickTimers delta).advance.raised
      (.decodeError (wordAtPc s) s.pc { v := s.v, i := s.i, sp := s.sp, pc := s.pc + 2#16 })) := by
  rw [executeCycle_of_running h hw, runOne_error (s := s.tickTimers delta) hpc hd]; rfl

theorem executeCycle_of_decoded {i : Instr} (hw : s.wait = false) (hpc : s.pc.toNat + 1 ≤ 0xFFF)
    (hd : decode (wordAtPc s) = .ok i) :
    executeCycle delta s = endCycle (exec i (s.tickTimers delta).advance) := by
  rw [executeCycle_of_running h hw, runOne_ok (s := s.tickTimers delta) hpc hd]

end

/-- Settles O5: the step's operation is a cycle, whose body runs the decoded instruction. -/
theorem stepRunsDecodedInstruction : Obligations.StepRunsDecodedInstruction := fun s _ hw hpc hd =>
  ⟨fun hnil hmay => (step_nil hnil).trans (executeCycle_of_decoded hmay hw hpc hd),
   fun _ rest hcons hmay => (step_cons hcons).trans
    (executeCycle_of_decoded (s := { s with inbox := rest }) hmay hw hpc hd)⟩

/-! ### The frames of a cycle's parts -/

theorem unchangedBut_advance (s : State) : UnchangedBut [.pc] s s.advance := by
  intro p hp; cases p <;> simp_all [Part.same, State.reg]

/-- The frame of a cycle, from the frame of what came after its ticks. -/
theorem unchangedBut_of_ticked {l l' : List Part} {delta : Rat} {s t : State} (h : UnchangedBut l (s.tickTimers delta) t)
    (hl : [.time, .delayTimer, .soundTimer] ++ l ⊆ l') : UnchangedBut l' s t :=
  unchangedBut_mono (unchangedBut_append (unchangedBut_tickTimers s delta) h) hl

/-- An error raised after the fetch advance changes PC, FAULT and the outputs. -/
theorem unchangedBut_advance_raised (s : State) (e : Error) :
    UnchangedBut [.pc, .fault, .outputs] s (s.advance.raised e) :=
  unchangedBut_append (unchangedBut_advance s) (unchangedBut_raised s.advance e)

/-! ### Cycles that raise (R56, R84, R183) -/

/-- Settles O6: the error is raised at the advanced PC, after the ticks. -/
theorem undefinedWordLatchesDecodeError : Obligations.UndefinedWordLatchesDecodeError :=
  fun s delta _ h hw hpc hd => by
    have hframe := unchangedBut_advance_raised (s.tickTimers delta)
      (.decodeError (wordAtPc s) s.pc { v := s.v, i := s.i, sp := s.sp, pc := s.pc + 2#16 })
    exact ⟨_, _, executeCycle_of_undefined h hw hpc hd, rfl, rfl, rfl, rfl, hframe,
      unchangedBut_of_ticked hframe (by simp)⟩

/-- Settles O7: the error is raised at the unchanged PC, after the ticks. -/
theorem fetchPastMemoryRaises : Obligations.FetchPastMemoryRaises := fun s delta h hw hpc =>
  have hframe := unchangedBut_raised (s.tickTimers delta) (.memoryAccess s.pc 2)
  ⟨_, executeCycle_of_fetchFault h hw hpc, rfl, rfl, hframe, unchangedBut_of_ticked hframe (by simp)⟩

/-- A cycle's body that latches an error raised it, at the advanced PC unless the fetch itself raised. -/
theorem cycleBody_latches {s u : State} {e : Error} (h : s.cycleBody = .next u) (hs : s.fault = none)
    (hu : u.fault = some e) : u = (if 0xFFF ≤ s.pc.toNat then s else s.advance).raised e := by
  rcases cycleBody_next h with ⟨_, rfl⟩ | ⟨_, hpc, i, hi⟩ | ⟨_, hpc, e', rfl⟩ | ⟨_, hpc, e', rfl⟩
  · simp [hs] at hu
  · obtain ⟨_, rfl⟩ := exec_latches (s := s.advance) hi hs hu
    rw [if_neg (not_le.mpr hpc)]
  · cases hu; rw [if_neg (not_le.mpr hpc)]
  · cases hu; rw [if_pos hpc]

/-- A cycle that latches an error is its ticks, the advance unless the fetch raised, and the raising. -/
theorem executeCycle_latches {delta : Rat} {s t : State} {e : Error} (h : executeCycle delta s = .next t)
    (ht : t.fault = some e) :
    t = (if 0xFFF ≤ s.pc.toNat then s.tickTimers delta else (s.tickTimers delta).advance).raised e := by
  obtain ⟨_, hfault, _, u, hu, rfl⟩ := executeCycle_next h
  by_cases hf : u.fault = none
  · simp [hf] at ht
  · rw [if_neg hf] at ht ⊢
    exact cycleBody_latches (s := s.tickTimers delta) hu hfault ht

/-- Settles O11, by whether the fetch itself raised. -/
theorem failedCycleState : Obligations.FailedCycleState := fun s t delta e h ht => by
  obtain rfl := executeCycle_latches h ht
  by_cases hpc : 0xFFF ≤ s.pc.toNat
  · simp only [if_pos hpc]
    have hframe := unchangedBut_mono (l' := [.pc, .fault, .outputs]) (unchangedBut_raised (s.tickTimers delta) e) (by simp)
    exact ⟨rfl, rfl, hframe, unchangedBut_of_ticked hframe (by simp)⟩
  · simp only [if_neg hpc]
    have hframe := unchangedBut_advance_raised (s.tickTimers delta) e
    exact ⟨rfl, rfl, hframe, unchangedBut_of_ticked hframe (by simp)⟩

/-! ### The ticks and the waiting cycle (R181, R182) -/

/-- Settles O8: the cycle is the ticks and the tone check. -/
theorem waitingCycleOnlyTicks : Obligations.WaitingCycleOnlyTicks := fun s delta h hw => by
  have hframe := unchangedBut_toneEdge (s.tickTimers delta)
  refine ⟨_, executeCycle_of_waiting h hw, ?_, ?_, hframe, unchangedBut_of_ticked hframe (by simp)⟩
  · rw [State.toneEdge_dt, State.tickTimers_dt, ticked_toNat, State.ticksDue_eq]
  · rw [State.toneEdge_st, State.tickTimers_st, ticked_toNat, State.ticksDue_eq]

/-- `k` single decrements, each floored at zero. -/
theorem iterate_decrement (k m : Nat) : (fun n => n - 1)^[k] m = m - k := Nat.pred_iterate m k

/-- Settles O9: the number of ticks is the floor of the periods accumulated. -/
theorem ticksCountWholePeriods : Obligations.TicksCountWholePeriods := fun s delta hacc hdelta => by
  have hsum : 0 ≤ s.acc + delta := add_nonneg hacc hdelta
  obtain ⟨hnonneg, hlt⟩ := s.tickTimers_acc_range delta hsum
  refine ⟨s.ticksDue delta, ?_, ?_, s.tickTimers_acc_eq delta, hnonneg, hlt, ?_, ?_, unchangedBut_tickTimers s delta⟩
  · rw [State.ticksDue_eq]; exact Nat.floor_le (by positivity)
  · rw [State.ticksDue_eq]; exact Nat.lt_floor_add_one _
  · rw [State.tickTimers_dt, ticked_toNat, iterate_decrement]
  · rw [State.tickTimers_st, ticked_toNat, iterate_decrement]

/-! ### The tone check (R185) -/

/-- A cycle's body that latches no error leaves the outputs and TONE to the tone check. -/
theorem cycleBody_keeps_tone {s u : State} (h : s.cycleBody = .next u) (hu : u.fault = none) :
    u.out = s.out ∧ u.tone = s.tone := by
  rcases cycleBody_next h with ⟨_, rfl⟩ | ⟨_, _, i, hi⟩ | ⟨_, _, e, rfl⟩ | ⟨_, _, e, rfl⟩
  · exact ⟨rfl, rfl⟩
  · rcases exec_next hi with ⟨e, rfl⟩ | hq
    · simp at hu
    · exact ⟨hq.out, hq.tone⟩
  · simp at hu
  · simp at hu

/-- After the tone check TONE is on exactly if ST is not zero, with an event exactly on a change. -/
theorem toneEdge_spec (s : State) : (s.toneEdge.tone = true ↔ s.st ≠ 0#8) ∧
    s.toneEdge.out = s.out ++
      (if s.toneEdge.tone = s.tone then [] else if s.toneEdge.tone = true then [.startTone] else [.stopTone]) := by
  rcases toneEdge_cases s with ⟨hst, htone, e⟩ | ⟨hst, htone, e⟩ | ⟨hiff, e⟩ <;> rw [e]
  · simp [hst, htone]
  · simp [hst, htone]
  · exact ⟨hiff, by simp⟩

/-- Settles O10: a cycle without an error ends in the tone check, which its body left alone. -/
theorem toneFollowsSoundTimer : Obligations.ToneFollowsSoundTimer := fun s t delta h ht => by
  obtain ⟨_, _, _, u, hu, rfl⟩ := executeCycle_next h
  by_cases hf : u.fault = none
  · obtain ⟨hout, htone⟩ := cycleBody_keeps_tone hu hf
    obtain ⟨hon, hevents⟩ := toneEdge_spec u
    rw [if_pos hf, State.toneEdge_st]
    rw [hout, htone] at hevents
    exact ⟨hon, hevents⟩
  · rw [if_neg hf] at ht
    exact absurd ht hf

/-! ### Every cycle answers (R184) -/

theorem cycleBody_answers {s : State} (hsp : s.sp.toNat ≤ 16) : ∃ u, s.cycleBody = .next u := by
  cases hw : s.wait
  · rw [cycleBody_running hw]
    rcases runOne_cases s with ⟨_, e⟩ | ⟨_, _, _, ⟨i, _, e⟩ | ⟨_, _, e⟩⟩
    · exact ⟨_, e⟩
    · rw [e]; exact everyInstructionAnswers i s.advance hsp
    · exact ⟨_, e⟩
  · exact ⟨s, cycleBody_waiting hw⟩

/-- Settles O12: the cycle's body answers, and the tone check keeps an answer. -/
theorem cyclesAlwaysAnswer : Obligations.CyclesAlwaysAnswer := fun s delta h hsp => by
  obtain ⟨u, hu⟩ := cycleBody_answers (s := s.tickTimers delta) hsp
  exact ⟨_, by rw [executeCycle_of_mayCycle h, hu]; rfl⟩

/-! ### Waiting for a key across cycles (R188, R225) -/

/-- The rewind of LD Vx, K takes back the fetch advance. -/
theorem rewind_advance (s : State) : s.advance.rewind = s := by
  have hpc : s.pc + 2#16 - 2#16 = s.pc := BitVec.add_sub_cancel _ _
  simp [State.rewind, State.advance, hpc]

section
variable {delta : Rat} {s : State} {x : Nibble} (h : HostMayCycle delta s) (hw : s.wait = false)
  (hpc : s.pc.toNat + 1 ≤ 0xFFF) (hd : decode (wordAtPc s) = .ok (.ldVxK x))
include h hw hpc hd

/-- The cycle that meets LD Vx, K with nothing pending begins to wait at the instruction. -/
theorem executeCycle_starts_waiting (hp : s.pend = none) :
    ∃ t, executeCycle delta s = .next t ∧ t.wait = true ∧ t.pend = none ∧ t.pc = s.pc ∧ t.v = s.v ∧ t.mem = s.mem ∧
      t.loaded = true ∧ t.fault = none := by
  have hcycle := executeCycle_of_decoded h hw hpc hd
  rw [exec_ldVxK_of_no_pend (s := (s.tickTimers delta).advance) hp, rewind_advance] at hcycle
  obtain ⟨hloaded, hfault, -⟩ := h
  refine ⟨_, hcycle.trans (endCycle_next (s := { s.tickTimers delta with wait := true }) hfault), ?_⟩
  simp [hp, hloaded, hfault]

/-- The cycle that meets LD Vx, K with a captured key writes it and moves on. -/
theorem executeCycle_takes_key {k : Nibble} (hp : s.pend = some k) :
    ∃ t, executeCycle delta s = .next t ∧ (t.reg x).toNat = k.toNat ∧ t.pend = none ∧ t.wait = false ∧
      t.pc = s.pc + 2#16 := by
  have hcycle := executeCycle_of_decoded h hw hpc hd
  rw [exec_ldVxK_of_pend (s := (s.tickTimers delta).advance) hp] at hcycle
  obtain ⟨-, hfault, -⟩ := h
  refine ⟨_, hcycle.trans (endCycle_next hfault), ?_, by simp, by simp [hw], by simp⟩
  have hreg := State.reg_congr (s := (s.tickTimers delta).advance.setReg x (k.setWidth 8)) (State.toneEdge_v
    { (s.tickTimers delta).advance.setReg x (k.setWidth 8) with pend := none }) x
  rw [hreg, State.reg_setReg_same, byteOf_key_toNat]

end

/-- Settles O45: the cycle that begins to wait, the capture, and the cycle that takes the key. -/
theorem keyReachesRegisterOneCycleLater : Obligations.KeyReachesRegisterOneCycleLater := by
  intro s x k d1 d2 h1 hd2 hw hp hpc hdec
  obtain ⟨t, hwaits, htwait, htpend, htpc, htv, htmem, htloaded, htfault⟩ := executeCycle_starts_waiting h1 hw hpc hdec hp
  have hword : wordAtPc { t.setKey k true with pend := some k, wait := false } = wordAtPc s := by
    simp [wordAtPc, htpc, htmem]
  obtain ⟨w, htakes, hreg, hwpend, hwwait, hwpc⟩ :=
    executeCycle_takes_key (s := { t.setKey k true with pend := some k, wait := false }) ⟨htloaded, htfault, hd2⟩ rfl
      (by simpa [htpc] using hpc) (hword ▸ hdec) rfl
  exact ⟨t, _, w, hwaits, htwait, htpc, keyDown_captures k htwait htpend, rfl, rfl, State.reg_congr htv x, htakes, hreg,
    hwpend, hwwait, by simpa [htpc] using hwpc⟩

end Sys2Proof.Machine
end

section
/-! The other host operations and the invariant (45_cycle_orchestrator.md R189, R190; 70_reset_and_hazards.md R220;
10_state.md R34): reset, load, the refusals, and what every step keeps. O13, O14, O15, O17, O54, O55, O56. -/
namespace Sys2Proof.Machine

open Sys2Proof.Safety

/-! ### Reset (R36, R220) -/

/-- The reset values hold whatever the model's own fields are. -/
theorem holdsResetValues (draws : Nat) (inbox : List HostOp) (hostDelta : Rat) (out : List Output) :
    HoldsResetValues { State.reset with draws := draws, inbox := inbox, hostDelta := hostDelta, out := out } where
  font a ha := if_pos ha
  zeroMemory a ha := if_neg (not_lt.mpr ha)
  regs r := by simp [State.reg, State.reset]
  index := rfl
  pc := rfl
  stack k := by simp [State.reset]
  sp := rfl
  timers := ⟨rfl, rfl⟩
  display := Display.get_clear
  keys k := by simp [State.key, State.reset]
  waiting := rfl
  pending := rfl
  time := rfl
  tone := rfl
  loaded := rfl
  fault := rfl

/-- Settles O14: the constructed state's own fields are those of the model at rest. -/
theorem resetStateHoldsResetValues : Obligations.ResetStateHoldsResetValues := holdsResetValues 0 [] 0 []

/-- Settles O13: the step's operation is the reset. -/
theorem resetFromAnyState : Obligations.ResetFromAnyState := fun s rest h => by
  refine ⟨_, (step_cons h).trans rfl, holdsResetValues _ _ _ _, rfl, ?_⟩
  cases s.tone <;> simp

/-! ### Load (R190) -/

theorem loadProgram_of_fits {s : State} {program : List Byte} (hl : s.loaded = false) (h : program.length ≤ 3584) :
    loadProgram program s = .next { s with mem := Memory.writeBytes s.mem 0x200 program, loaded := true } := by
  have hfits : ¬ program.length > Config.maxProgramLen := not_lt.mpr h
  simp [loadProgram, hl, hfits]

theorem loadProgram_of_too_long {s : State} {program : List Byte} (hl : s.loaded = false) (h : 3584 < program.length) :
    loadProgram program s = .next (s.emit (.error (.programTooLarge program.length))) := by
  have hlong : program.length > Config.maxProgramLen := h
  simp [loadProgram, hl, hlong]

theorem unchangedBut_emit (s : State) (o : Output) : UnchangedBut [.outputs] s (s.emit o) := by
  intro p hp; cases p <;> simp_all [Part.same, State.reg]

theorem unchangedBut_placed (s : State) (m : Memory) (b : Bool) :
    UnchangedBut [.memory, .loaded] s { s with mem := m, loaded := b } := by
  intro p hp; cases p <;> simp_all [Part.same, State.reg]

/-- Settles O15: the block write at 0x200, or the LoadError. -/
theorem loadPlacesProgram : Obligations.LoadPlacesProgram := fun s program hl =>
  ⟨fun h => ⟨_, loadProgram_of_fits hl h, fun k hk => Memory.read_writeBytes_inside s.mem 0x200 k program hk,
      fun a ha => Memory.read_writeBytes_outside s.mem 0x200 a program ha, rfl, unchangedBut_placed s _ _⟩,
   fun h => ⟨_, loadProgram_of_too_long hl h, rfl, unchangedBut_emit s _⟩⟩

/-! ### The refusals (R189) -/

/-- Settles O17: each call meets the check that refuses it. -/
theorem contractViolationsRefused : Obligations.ContractViolationsRefused := by
  intro s delta program k
  refine ⟨fun hl => if_pos hl, fun hl hf => ?_, fun hl hf hd => ?_, fun hl => if_pos hl, fun hk => ⟨?_, ?_⟩⟩
  · simp [executeCycle, hl, hf]
  · have hneg : delta.num < 0 := (num_neg_iff delta).mpr hd
    simp [executeCycle, hl, hf, hneg]
  · exact if_neg (not_lt.mpr hk)
  · exact if_neg (not_lt.mpr hk)

/-! ### What every step keeps -/

/-- A property that every host operation keeps, and that does not read `inbox`, is kept by every step. -/
theorem step_keeps {P : State → Prop} (hbox : ∀ s rest, P s → P { s with inbox := rest })
    (hop : ∀ op s t, P s → perform op s = .next t → P t) {s t : State} (hs : P s) (h : step s = .next t) : P t := by
  cases hi : s.inbox with
  | nil => exact hop (.executeCycle s.hostDelta) s t hs ((step_nil hi).symm.trans h)
  | cons op rest => exact hop op _ t (hbox s rest hs) ((step_cons hi).symm.trans h)

/-! ### The canonical form of memory (log entry 27) -/

theorem cycleBody_keeps_memory_form {s u : State} (h : s.cycleBody = .next u) (hs : Memory.wf s.mem = true) :
    Memory.wf u.mem = true := by
  rcases cycleBody_next h with ⟨_, rfl⟩ | ⟨_, _, i, hi⟩ | ⟨_, _, e, rfl⟩ | ⟨_, _, e, rfl⟩
  · exact hs
  · exact exec_keeps_memory_form hi hs
  · exact hs
  · exact hs

theorem executeCycle_keeps_memory_form {delta : Rat} {s t : State} (h : executeCycle delta s = .next t)
    (hs : Memory.wf s.mem = true) : Memory.wf t.mem = true := by
  obtain ⟨_, _, _, u, hu, rfl⟩ := executeCycle_next h
  have hwf : Memory.wf u.mem = true := cycleBody_keeps_memory_form hu hs
  split <;> simp [hwf]

theorem perform_keeps_memory_form (op : HostOp) (s t : State) (hs : Memory.wf s.mem = true)
    (h : perform op s = .next t) : Memory.wf t.mem = true := by
  cases op with
  | load p =>
    obtain ⟨_, ⟨_, rfl⟩ | ⟨hp, rfl⟩⟩ := loadProgram_next h
    · exact hs
    · exact Memory.wf_writeBytes _ _ _ hs (by simp only [Config.memSize]; omega)
  | reset => cases h; exact Memory.wf_reset
  | executeCycle d => exact executeCycle_keeps_memory_form h hs
  | keyDown k => obtain ⟨q, _, rfl⟩ := keyDown_next h; simpa using hs
  | keyUp k => obtain ⟨q, _, rfl⟩ := keyUp_next h; exact hs

/-- Settles O54: each host operation keeps the form. -/
theorem memoryFormKeptByEveryStep : Obligations.MemoryFormKeptByEveryStep := fun _ _ hs h =>
  step_keeps (P := fun s => Memory.wf s.mem = true) (fun _ _ hs => hs) perform_keeps_memory_form hs h

/-! ### The invariant (R34) -/

/-- Settles O55: memory lists nothing, the stack is empty, and PC and ACC are at the low end of their ranges. -/
theorem invariantAtReset : Obligations.InvariantAtReset where
  spInRange := Nat.zero_le _
  pendingNotWaiting _ := rfl
  pcFrom := by decide
  pcTo := by decide
  returns _ hk := absurd hk (Nat.not_lt_zero _)
  lowMemory _ _ := rfl
  memoryWf := rfl
  accRange := by constructor <;> norm_num [State.reset]

/-- The fields the invariant reads, but PC, are the same in both states. -/
structure InvFieldsSame (s t : State) : Prop where
  sp : t.sp = s.sp
  stack : t.stack = s.stack
  wait : t.wait = s.wait
  pend : t.pend = s.pend
  mem : t.mem = s.mem
  acc : t.acc = s.acc

/-- The range of PC in the invariant (R24, R34 (c)). -/
def PcInRange (s : State) : Prop := 0x200 ≤ s.pc.toNat ∧ s.pc.toNat ≤ 0x1002

/-- The invariant is kept where its other fields are the same and PC is in its range. -/
theorem inv_of_same {s t : State} (hs : Inv s) (h : InvFieldsSame s t) (hpc : PcInRange t) : Inv t where
  spInRange := by rw [h.sp]; exact hs.spInRange
  pendingNotWaiting := by rw [h.pend, h.wait]; exact hs.pendingNotWaiting
  pcFrom := hpc.1
  pcTo := hpc.2
  returns := by rw [h.sp, h.stack]; exact hs.returns
  lowMemory := by rw [h.mem]; exact hs.lowMemory
  memoryWf := by rw [h.mem]; exact hs.memoryWf
  accRange := by rw [h.acc]; exact hs.accRange

/-- The same, where PC is the same too. -/
theorem inv_of_same_pc {s t : State} (hs : Inv s) (h : InvFieldsSame s t) (hpc : t.pc = s.pc) : Inv t :=
  inv_of_same hs h (by rw [PcInRange, hpc]; exact ⟨hs.pcFrom, hs.pcTo⟩)

/-- A fetch-advanced PC: what an instruction meets, and what CALL pushes. -/
def PcAdvanced (s : State) : Prop := 0x202 ≤ s.pc.toNat ∧ s.pc.toNat ≤ 0x1000

theorem pc_add_two_toNat {s : State} (h : s.pc.toNat ≤ 0x1000) : (s.pc + 2#16).toNat = s.pc.toNat + 2 := by
  rw [BitVec.toNat_add]; exact Nat.mod_eq_of_lt (by simp; omega)

theorem pc_sub_two_toNat {s : State} (h : 2 ≤ s.pc.toNat) : (s.pc - 2#16).toNat = s.pc.toNat - 2 := by
  have := s.pc.isLt
  rw [BitVec.toNat_sub, BitVec.toNat_ofNat]; omega

/-- The fetch advance keeps the invariant, from a PC whose word lies in memory. -/
theorem inv_advance {s : State} (hs : Inv s) (hpc : s.pc.toNat < 0xFFF) : Inv s.advance ∧ PcAdvanced s.advance := by
  have hto : s.advance.pc.toNat = s.pc.toNat + 2 := pc_add_two_toNat (by omega)
  have hfrom := hs.pcFrom
  simp only [Config.programBase] at hfrom
  exact ⟨inv_of_same hs ⟨rfl, rfl, rfl, rfl, rfl, rfl⟩ (by rw [PcInRange]; omega), by rw [PcAdvanced]; omega⟩

theorem pcInRange_skipIf {s : State} (h : PcAdvanced s) (c : Bool) : PcInRange (s.skipIf c) := by
  obtain ⟨hfrom, hto⟩ := h
  have hskip := pc_add_two_toNat hto
  rw [PcInRange, State.skipIf_pc]
  cases c
  · exact ⟨by simpa using by omega, by simpa using by omega⟩
  · simp only [if_true, hskip]; omega

/-- The entries in use after CALL: the pushed PC and those below it. -/
theorem inv_called {s : State} (hs : Inv s) (hpc : PcAdvanced s) {t : Nat} (ht : 0x200 ≤ t ∧ t < 0x1000)
    (h : s.sp.toNat < 16) : Inv (s.called t h) := by
  have hsp : (s.called t h).sp.toNat = s.sp.toNat + 1 := sp_succ_toNat h
  have htarget : (s.called t h).pc.toNat = t := Nat.mod_eq_of_lt (by omega)
  refine ⟨?_, hs.pendingNotWaiting, ?_, ?_, fun k hk => ?_, hs.lowMemory, hs.memoryWf, hs.accRange⟩
  · rw [hsp]; exact h
  · rw [htarget]; exact ht.1
  · rw [htarget]; omega
  · by_cases hlast : k.val = s.sp.toNat
    · have hpushed : (s.called t h).stack[k] = s.pc := by simp [State.called, hlast]
      rw [hpushed]; exact hpc
    · rw [called_stack_other s t h k hlast]
      exact hs.returns k (by omega)

/-- RET goes to an entry in use, and the entries below it stay. -/
theorem inv_returned {s : State} (hs : Inv s) (h0 : 0 < s.sp.toNat) (h : s.sp.toNat - 1 < 16) : Inv (s.returned h) := by
  have hsp : (s.returned h).sp.toNat = s.sp.toNat - 1 := sp_pred_toNat h0
  obtain ⟨hfrom, hto⟩ : 0x202 ≤ (s.returned h).pc.toNat ∧ (s.returned h).pc.toNat ≤ 0x1000 :=
    hs.returns ⟨s.sp.toNat - 1, h⟩ (Nat.sub_lt h0 Nat.one_pos)
  refine ⟨?_, hs.pendingNotWaiting, ?_, ?_, fun k hk => hs.returns k (by omega), hs.lowMemory, hs.memoryWf, hs.accRange⟩
  · rw [hsp, Config.stackDepth]; omega
  · rw [Config.programBase]; omega
  · omega

/-- Every instruction keeps the invariant, from a fetch-advanced PC. -/
theorem exec_keeps_inv {i : Instr} {s t : State} (h : exec i s = .next t) (hs : Inv s) (hpc : PcAdvanced s) : Inv t := by
  have hlow (a : Nat) (ha : a < Config.programBase) : Memory.read t.mem a = Memory.resetByte a :=
    (exec_keeps_low_memory h ha).trans (hs.lowMemory a ha)
  have hform := exec_keeps_memory_form h hs.memoryWf
  cases exec_effect h
  case ret h1 h0 => exact inv_returned hs (Nat.pos_of_ne_zero fun e => h0 (BitVec.eq_of_toNat_eq e)) h1
  case call nnn ht hroom => exact inv_called hs hpc ((targetOk_iff (addrOf nnn)).mp ht) hroom
  case jump t ht =>
    obtain ⟨hfrom, hto⟩ := (targetOk_iff t).mp ht
    refine inv_of_same hs (by constructor <;> rfl) ?_
    rw [PcInRange, jump_pc_toNat s hto]; omega
  case skip c _ => exact inv_of_same hs (by constructor <;> simp) (pcInRange_skipIf hpc c)
  case bcd | store =>
    exact ⟨hs.spInRange, hs.pendingNotWaiting, hs.pcFrom, hs.pcTo, hs.returns, hlow, hform, hs.accRange⟩
  case keyTaken =>
    exact ⟨hs.spInRange, fun hne => absurd rfl hne, hs.pcFrom, hs.pcTo, hs.returns, hlow, hform, hs.accRange⟩
  case keyAwaited hp =>
    have hback := pc_sub_two_toNat (s := s) (by have := hpc.1; omega)
    obtain ⟨hfrom, hto⟩ := hpc
    refine ⟨hs.spInRange, fun hne => absurd hp hne, ?_, ?_, hs.returns, hlow, hform, hs.accRange⟩
    · rw [State.rewind_pc, hback, Config.programBase]; omega
    · rw [State.rewind_pc, hback]; omega
  all_goals exact inv_of_same_pc hs (by constructor <;> simp) (by simp)

theorem inv_raised {s : State} (hs : Inv s) (e : Error) : Inv (s.raised e) :=
  inv_of_same_pc hs ⟨rfl, rfl, rfl, rfl, rfl, rfl⟩ rfl

theorem inv_toneEdge {s : State} (hs : Inv s) : Inv s.toneEdge :=
  inv_of_same_pc hs (by constructor <;> simp) (by simp)

/-- The ticks keep the invariant: ACC is left with less than a period. -/
theorem inv_tickTimers {s : State} {delta : Rat} (hs : Inv s) (hd : 0 ≤ delta) : Inv (s.tickTimers delta) :=
  ⟨hs.spInRange, hs.pendingNotWaiting, hs.pcFrom, hs.pcTo, hs.returns, hs.lowMemory, hs.memoryWf,
    s.tickTimers_acc_range delta (add_nonneg hs.accRange.1 hd)⟩

theorem cycleBody_keeps_inv {s u : State} (h : s.cycleBody = .next u) (hs : Inv s) : Inv u := by
  rcases cycleBody_next h with ⟨_, rfl⟩ | ⟨_, hpc, i, hi⟩ | ⟨_, hpc, e, rfl⟩ | ⟨_, _, e, rfl⟩
  · exact hs
  · obtain ⟨hadv, hrange⟩ := inv_advance hs hpc
    exact exec_keeps_inv hi hadv hrange
  · exact inv_raised (inv_advance hs hpc).1 e
  · exact inv_raised hs e

theorem executeCycle_keeps_inv {delta : Rat} {s t : State} (h : executeCycle delta s = .next t) (hs : Inv s) : Inv t := by
  obtain ⟨_, _, hd, u, hu, rfl⟩ := executeCycle_next h
  have hinv := cycleBody_keeps_inv hu (inv_tickTimers hs hd)
  split
  · exact inv_toneEdge hinv
  · exact hinv

/-- A program of at most 3584 bytes at 0x200 leaves the bytes below it and stays inside memory. -/
theorem inv_placed {s : State} (hs : Inv s) {program : List Byte} (h : program.length ≤ 3584) :
    Inv { s with mem := Memory.writeBytes s.mem 0x200 program, loaded := true } :=
  ⟨hs.spInRange, hs.pendingNotWaiting, hs.pcFrom, hs.pcTo, hs.returns,
    fun a ha => (Memory.read_writeBytes_outside _ _ _ _ (.inl ha)).trans (hs.lowMemory a ha),
    Memory.wf_writeBytes _ _ _ hs.memoryWf (by simp only [Config.memSize]; omega), hs.accRange⟩

/-- A capture ends the wait as it sets PEND. -/
theorem inv_capture {s : State} (hs : Inv s) (k : Nibble) : Inv (s.capture k) := by
  rcases capture_cases s k with ⟨_, _, e⟩ | ⟨_, e⟩ <;> rw [e]
  · exact ⟨hs.spInRange, fun _ => rfl, hs.pcFrom, hs.pcTo, hs.returns, hs.lowMemory, hs.memoryWf, hs.accRange⟩
  · exact hs

theorem inv_setKey {s : State} (hs : Inv s) (k : Nibble) (b : Bool) : Inv (s.setKey k b) :=
  inv_of_same_pc hs ⟨rfl, rfl, rfl, rfl, rfl, rfl⟩ rfl

theorem perform_keeps_inv (op : HostOp) (s t : State) (hs : Inv s) (h : perform op s = .next t) : Inv t := by
  cases op with
  | load p =>
    obtain ⟨_, ⟨_, rfl⟩ | ⟨hp, rfl⟩⟩ := loadProgram_next h
    · exact inv_of_same_pc hs ⟨rfl, rfl, rfl, rfl, rfl, rfl⟩ rfl
    · exact inv_placed hs hp
  | reset => cases h; exact inv_of_same_pc invariantAtReset ⟨rfl, rfl, rfl, rfl, rfl, rfl⟩ rfl
  | executeCycle d => exact executeCycle_keeps_inv h hs
  | keyDown k => obtain ⟨q, _, rfl⟩ := keyDown_next h; exact inv_capture (inv_setKey hs q true) q
  | keyUp k => obtain ⟨q, _, rfl⟩ := keyUp_next h; exact inv_setKey hs q false

/-- Settles O56: each host operation keeps the invariant, which does not read `inbox`. -/
theorem invariantKeptByEveryStep : Obligations.InvariantKeptByEveryStep := fun _ _ hs h =>
  step_keeps (P := Inv) (fun _ _ hs => inv_of_same_pc hs ⟨rfl, rfl, rfl, rfl, rfl, rfl⟩ rfl) perform_keeps_inv hs h

end Sys2Proof.Machine
end
